-- ==== Sys2Proof/Word.lean ====
section
/-! DEFINITION. The word types of the k8e core. Every value is unsigned (00_scope.md R12); bit 0 is
the least significant bit (R11). -/

namespace Sys2Proof

/-- An 8-bit value: a general register, a timer, a byte of memory, the immediate `kk` (R7, R93). -/
abbrev Byte := BitVec 8

/-- A 16-bit value: an instruction word, `I`, `pc`, a stack entry (R7). -/
abbrev Word := BitVec 16

/-- The 12-bit immediate `nnn` (R91). -/
abbrev Addr := BitVec 12

/-- A 4-bit field of an instruction word (R91). -/
abbrev Nibble := BitVec 4

/-- A register number: `V0` to `VF` (R21). -/
abbrev Reg := Fin 16

/-- `{hi, lo}`: the concatenation with `hi` in the high bits (R11). -/
def Word.ofBytes (hi lo : Byte) : Word := hi ++ lo

/-- Bits 7 to 0 of a word. -/
def Word.lowByte (w : Word) : Byte := w.extractLsb' 0 8

/-- Bits 15 to 8 of a word. -/
def Word.highByte (w : Word) : Byte := w.extractLsb' 8 8

end Sys2Proof
end

