-- ==== Sys2Proof/Config.lean ====
section
/-! DEFINITION. The parameters of the k8e core (00_scope.md R7, R8) and the free values that the spec
leaves to the environment or does not state. A free value is an `opaque` constant: nothing is known
of it but its type. -/

namespace Sys2Proof.Config

/-- `MEM_SIZE` (R8). -/
def memSize : Nat := 4096

/-- `PROGRAM_START`: first address of the program region and reset value of `pc` (R8, R61). -/
def programStart : Nat := 0x200

/-- `PROGRAM_MAX`: the largest program the loader accepts, in bytes (R8). -/
def programMax : Nat := 3584

/-- `PROGRAM_END`: the bound of `Fx33`, `Fx55`, `Fx65` (R8, R65; the spec's decision D1). -/
def programEnd : Nat := 0x1000

/-- `FONT_BASE` (R8). -/
def fontBase : Nat := 0x000

/-- `FONT_GLYPH_BYTES` (R8). -/
def fontGlyphBytes : Nat := 5

/-- `FONT_COUNT` (R8). -/
def fontCount : Nat := 16

/-- `FONT`: the 80 font bytes (R8, R62). PRESUMED by the spec itself (its default is general
knowledge, decision D14): log 9. Operations take the font as an argument; this is its default. -/
def font : List Byte :=
  [0xF0, 0x90, 0x90, 0x90, 0xF0, 0x20, 0x60, 0x20, 0x20, 0x70] ++
  [0xF0, 0x10, 0xF0, 0x80, 0xF0, 0xF0, 0x10, 0xF0, 0x10, 0xF0] ++
  [0x90, 0x90, 0xF0, 0x10, 0x10, 0xF0, 0x80, 0xF0, 0x10, 0xF0] ++
  [0xF0, 0x80, 0xF0, 0x90, 0xF0, 0xF0, 0x10, 0x20, 0x40, 0x40] ++
  [0xF0, 0x90, 0xF0, 0x90, 0xF0, 0xF0, 0x90, 0xF0, 0x10, 0xF0] ++
  [0xF0, 0x90, 0xF0, 0x90, 0x90, 0xE0, 0x90, 0xE0, 0x90, 0xE0] ++
  [0xF0, 0x80, 0x80, 0x80, 0xF0, 0xE0, 0x90, 0x90, 0x90, 0xE0] ++
  [0xF0, 0x80, 0xF0, 0x80, 0xF0, 0xF0, 0x80, 0xF0, 0x80, 0x80]

/-- `DISPLAY_W`: columns of the display (R8). -/
def displayW : Nat := 64

/-- `DISPLAY_H`: rows of the display (R8). -/
def displayH : Nat := 32

/-- `STACK_DEPTH` (R8). -/
def stackDepth : Nat := 16

/-- `NUM_KEYS`: logical keys the input source knows, `0x0` to `0xF` (R8). PRESUMED by the spec itself
(general knowledge, row G2 of 93_implementation_defined.md): log 19. No rule of the core depends on it, and
no definition reads it: a key number is passed to the input source in all 8 bits (R220). -/
def numKeys : Nat := 16

/-- `TIMER_HZ` (R8). -/
def timerHz : Nat := 60

/-- `CPU_HZ`: configuration, "default 500" (R8): log 8. -/
def cpuHz : Nat := 500

/-- `INITIAL_PAUSE`: configuration without a default (R8, D37). DESIGN CHOICE false: log 8;
`State.create` takes the flag as an argument. -/
def initialPause : Bool := false

/-- `BNNN_RELATIVE` (R8, R129): this hardware takes `false`. -/
def bnnnRelative : Bool := false

/-- `SAVESTATE_SIZE` (R8, R241). -/
def savestateSize : Nat := 4415

/-! ## Free values -/

/-- The environment's answer to `RandomByte()` (R161, R14): any byte, with no law relating draws.
Log 1. -/
opaque freeRandomByte : Nat → Byte

/-- The environment's answer to `KeyDown(k)` (R220): any Bool for any key number. Log 1. -/
opaque freeKeyDown : Nat → Byte → Bool

/-- The key that `WaitKey()` returns (R220, R223): any byte. Log 2. -/
opaque freeKey : Nat → Byte

/-- Whether a clock period that is not a whole number of microseconds counts as rounded up (the
exact reading, seen at whole microseconds) or is truncated: not stated (R291, N25). Log 12. -/
opaque freePeriodRoundsUp : Nat → Bool

/-- The period of a clock of frequency 0: not stated (N25). Log 12. -/
opaque freePeriodAtZero : Nat → Nat

/-- What `poll()` answers before `start()`: not stated (N25). Log 13. -/
opaque freePollUnstarted : Nat → Nat → Bool

end Sys2Proof.Config
end

