-- ==== Sys2Proof/Syntax.lean ====
section
/-! DEFINITION. The instructions of the k8e core: one constructor per row of spec/opcode_table.json
(30_encoding.md R95), with the operands of that row. -/

namespace Sys2Proof

/-- The 35 instructions and the catch-all row of illegal words (R94, R95). -/
inductive Instr where
  /-- `00E0` CLS (R206). -/
  | cls
  /-- `00EE` RET (R126). -/
  | ret
  /-- `0nnn` SYS nnn, all of group 0 but `00E0` and `00EE` (R125). -/
  | sys (nnn : Addr)
  /-- `1nnn` JP nnn (R127). -/
  | jp (nnn : Addr)
  /-- `2nnn` CALL nnn (R128). -/
  | call (nnn : Addr)
  /-- `3xkk` SE Vx, kk (R130). -/
  | seImm (x : Reg) (kk : Byte)
  /-- `4xkk` SNE Vx, kk (R131). -/
  | sneImm (x : Reg) (kk : Byte)
  /-- `5xy0` SE Vx, Vy (R132). -/
  | seReg (x y : Reg)
  /-- `6xkk` LD Vx, kk (R150). -/
  | ldImm (x : Reg) (kk : Byte)
  /-- `7xkk` ADD Vx, kk (R151). -/
  | addImm (x : Reg) (kk : Byte)
  /-- `8xy0` LD Vx, Vy (R152). -/
  | ldReg (x y : Reg)
  /-- `8xy1` OR Vx, Vy (R153). -/
  | orReg (x y : Reg)
  /-- `8xy2` AND Vx, Vy (R154). -/
  | andReg (x y : Reg)
  /-- `8xy3` XOR Vx, Vy (R155). -/
  | xorReg (x y : Reg)
  /-- `8xy4` ADD Vx, Vy (R156). -/
  | addReg (x y : Reg)
  /-- `8xy5` SUB Vx, Vy (R157). -/
  | subReg (x y : Reg)
  /-- `8xy6` SHR Vx; the field `y` is in the word and ignored (R158). -/
  | shr (x y : Reg)
  /-- `8xy7` SUBN Vx, Vy (R159). -/
  | subn (x y : Reg)
  /-- `8xyE` SHL Vx; the field `y` is in the word and ignored (R160). -/
  | shl (x y : Reg)
  /-- `9xy0` SNE Vx, Vy (R133). -/
  | sneReg (x y : Reg)
  /-- `Annn` LD I, nnn (R180). -/
  | ldI (nnn : Addr)
  /-- `Bnnn` JP V0, nnn (R129). -/
  | jpV0 (nnn : Addr)
  /-- `Cxkk` RND Vx, kk (R161). -/
  | rnd (x : Reg) (kk : Byte)
  /-- `Dxyn` DRW Vx, Vy, n (R207). -/
  | drw (x y : Reg) (n : Nibble)
  /-- `Ex9E` SKP Vx (R221). -/
  | skp (x : Reg)
  /-- `ExA1` SKNP Vx (R222). -/
  | sknp (x : Reg)
  /-- `Fx07` LD Vx, DT (R224). -/
  | ldVxDt (x : Reg)
  /-- `Fx0A` LD Vx, K (R223). -/
  | ldVxK (x : Reg)
  /-- `Fx15` LD DT, Vx (R225). -/
  | ldDtVx (x : Reg)
  /-- `Fx18` LD ST, Vx (R226). -/
  | ldStVx (x : Reg)
  /-- `Fx1E` ADD I, Vx (R181). -/
  | addI (x : Reg)
  /-- `Fx29` LD F, Vx (R182). -/
  | ldF (x : Reg)
  /-- `Fx33` LD B, Vx (R183). -/
  | ldB (x : Reg)
  /-- `Fx55` LD [I], Vx (R184). -/
  | ldMemVx (x : Reg)
  /-- `Fx65` LD Vx, [I] (R185). -/
  | ldVxMem (x : Reg)
  /-- Any word matching no row above (R100, R134). -/
  | illegal (w : Word)
deriving DecidableEq, Repr

end Sys2Proof
end

