-- ==== Sys2Proof/Machine/State.lean ====
section
/-! DEFINITION. The state of the k8e core as plain data: the table of 10_state.md R20, and the model's
own fields that hold the inputs the spec gives the step relation (R41, R313). -/

namespace Sys2Proof.Machine

/-! ## Memory and display -/

/-- The 4096 bytes of `mem` as the list of the cells that differ from the reset content `0x00`, by
rising address (R33, R60). `Memory.wf` in Ops.lean is its canonical form. -/
abbrev Memory := List Host.Cell

/-- The 64 by 32 pixels, column first: `pix[px][py]` (R34, R200). -/
abbrev Grid := Vector (Vector Bool 32) 64

/-! ## Faults of the spec -/

/-- The `info` of an `OutOfBounds` raise: the offending address, coordinate or digit (R273). -/
inductive BoundsInfo where
  /-- A memory address (R64, R67, R183, R184, R185). -/
  | address (a : Nat)
  /-- A pixel position (R204). -/
  | pixel (px py : Nat)
  /-- A font digit (R182). -/
  | digit (d : Nat)
deriving DecidableEq, Repr

/-- What a `DataError` names as malformed (R78, R248). -/
inductive DataErrorInfo where
  /-- A program of more than 3584 bytes (R78). -/
  | oversizedProgram
  /-- A savestate header that is not `"K8E"`, NUL (R248). -/
  | header
  /-- A savestate footer that is not `"FIN"`, NUL (R248). -/
  | footer
deriving DecidableEq, Repr

/-- The faults of R270 that something in the block can raise (R279). They are latched in `status`;
they are not the outcome type `Fault` below. -/
inductive FaultCause where
  /-- `00EE` with `sp = 0` (R271). -/
  | stackUnderflow
  /-- `2nnn` with `sp >= 16`, `00EE` with `sp > 16` (R272). -/
  | stackOverflow
  /-- An index outside a fixed-size array (R273). -/
  | outOfBounds (info : BoundsInfo)
  /-- The pixel sink failed (R274). -/
  | subsystemError
  /-- A host operation could not read or write (R275). -/
  | ioError
  /-- A host operation was given malformed data (R275). -/
  | dataError (info : DataErrorInfo)
deriving DecidableEq, Repr

/-- The kinds of the source's taxonomy that arise in the block (R270). -/
inductive FaultKind where
  | rangeError
  | subsystemError
  | ioError
  | dataError
deriving DecidableEq, Repr

/-- The grouping of causes into kinds (R270, R279). -/
def FaultCause.kind : FaultCause → FaultKind
  | .stackUnderflow | .stackOverflow | .outOfBounds _ => .rangeError
  | .subsystemError => .subsystemError
  | .ioError => .ioError
  | .dataError _ => .dataError

/-- The `status` latch (R32). -/
inductive RunStatus where
  | running
  | faulted (f : FaultCause)
  | quit
deriving DecidableEq, Repr

/-! ## Clocks (R39, R291) -/

/-- A clock: `frequency` in Hz, `tick_count`, and `next_tick_deadline` in microseconds of the
environment's monotonic time, absent until `start()` (R39). The widths are not given: unbounded
(log 12). -/
structure Clock where
  frequency : Nat
  tickCount : Nat
  nextTick : Option Nat
deriving DecidableEq, Repr

/-! ## The environment (R14, R41) -/

/-- How a `WaitKey()` ends (R220, R223). -/
inductive WaitAnswer where
  /-- A key press arrives. -/
  | key (k : Byte)
  /-- The host's quit request arrives first (R277). -/
  | quit
  /-- Neither ever arrives: the step never completes (R223). -/
  | never
deriving DecidableEq, Repr

/-- The answers that the environment gives to the questions of the coming steps. A list holds the
next answers in order; past its end the answer is a free value of Config, applied to `asked`. -/
structure Env where
  /-- The next answers to `RandomByte()`. -/
  randomBytes : List Byte
  /-- The next answers to `KeyDown(k)`. -/
  keyDowns : List Bool
  /-- The next answers to `WaitKey()`. -/
  keyWaits : List WaitAnswer
  /-- How many free values have been taken. -/
  asked : Nat
  /-- `none`: the pixel sink accepts every pixel; `some k`: it accepts `k` more and then fails. -/
  sinkFailsAfter : Option Nat
deriving DecidableEq, Repr

/-! ## Events (R313) -/

/-- The transitions of the block: the rows of R313 that change state, with the clocks that cause
ticks (R291 to R293). A byte source is `none` where it cannot be read. -/
inductive Event where
  /-- A CPU tick: one `Step()` (R120). -/
  | cpuTick
  /-- A timer tick: one `TimerTick()` (R287). -/
  | timerTick
  /-- `start()` of the CPU clock, at its own time (R291, R312; that each start is a transition of its own
  is log 20). -/
  | startCpuClock (now : Nat)
  /-- `start()` of the timer clock, at its own time (R291, R312; log 20). -/
  | startTimerClock (now : Nat)
  /-- Poll the CPU clock; its tick requests one step (R292, R293). -/
  | pollCpuClock (now : Nat)
  /-- Poll the timer clock; its tick is one timer tick (R292, R293). -/
  | pollTimerClock (now : Nat)
  /-- `load_font()` (R77). -/
  | loadFont
  /-- `load_program(bytes)` (R78). -/
  | loadProgram (source : Option (List Byte))
  /-- Memory `reset()` (R79). -/
  | memoryReset
  /-- Write `paused` (R30). -/
  | writePaused (value : Bool)
  /-- Set `single_step` (R31). -/
  | setSingleStep
  /-- `capture`, with the host writing the image out; `false` where that write fails (R246). -/
  | saveState (written : Bool)
  /-- `restore` (R247). -/
  | restoreState (source : Option (List Byte))
  /-- The host's quit request between steps (R277). -/
  | quit
deriving DecidableEq, Repr

/-! ## State -/

/-- The complete state of the block (R20), then the model's own two fields. -/
structure State where
  /-- `V[0]` to `V[15]` (R21). -/
  V : Vector Byte 16
  /-- The index register (R26). -/
  I : Word
  /-- The delay timer (R27). -/
  dt : Byte
  /-- The sound timer (R27). -/
  st : Byte
  /-- The program counter (R23). -/
  pc : Word
  /-- The number of stack entries in use (R28). -/
  sp : Byte
  /-- The call stack (R28). -/
  stack : Vector Word 16
  /-- The last-fetched instruction word (R29). -/
  opcode : Word
  /-- The pause flag (R30). -/
  paused : Bool
  /-- The single-step request (R31). -/
  singleStep : Bool
  /-- The 4096 bytes of memory (R33). -/
  mem : Memory
  /-- The number of bytes the loader last copied (R33, R36). -/
  programLength : Nat
  /-- The display (R34). -/
  pix : Grid
  /-- The run's status (R32). -/
  status : RunStatus
  /-- The CPU clock (R39, R293). -/
  cpuClock : Clock
  /-- The timer clock (R39, R293). -/
  timerClock : Clock
  /-- MODEL'S OWN: the environment's answers to come (R41). Logs 1, 2, 5. -/
  env : Env
  /-- MODEL'S OWN: the transitions to come, in order (R319); past its end every transition is a CPU
  tick. Log 6. -/
  schedule : List Event
deriving DecidableEq, Repr

/-! ## Reset (R310) -/

/-- A clock as created: not started (R39). -/
def Clock.create (frequency : Nat) : Clock :=
  { frequency := frequency, tickCount := 0, nextTick := none }

/-- The environment with nothing said of its answers and a sink that does not fail. DESIGN CHOICE:
logs 1, 2, 5. -/
def Env.fresh : Env :=
  { randomBytes := [], keyDowns := [], keyWaits := [], asked := 0, sinkFailsAfter := none }

/-- Creation (R310), with the configuration's initial pause flag and CPU frequency (R8, D37). -/
def State.create (initialPause : Bool) (cpuHz : Nat) : State :=
  { V := Vector.replicate 16 0
    I := 0
    dt := 0
    st := 0
    pc := BitVec.ofNat 16 Config.programStart
    sp := 0
    stack := Vector.replicate 16 0
    opcode := 0
    paused := initialPause
    singleStep := false
    mem := []
    programLength := 0
    pix := Vector.replicate 64 (Vector.replicate 32 false)
    status := .running
    cpuClock := Clock.create cpuHz
    timerClock := Clock.create Config.timerHz
    env := Env.fresh
    schedule := [] }

/-- The machine right after creation, before any boot action (R310). `INITIAL_PAUSE` and `CPU_HZ` take
the values of Config (log 8). -/
def State.reset : State := State.create Config.initialPause Config.cpuHz

/-! ## Outcomes -/

/-- Why a step of the model answers no next state. The spec's own faults are not here: taking one is
a next state whose `status` is `Faulted` (R280). Nor is the end of a run: on a machine whose `status` is not
`Running` a transition has no effect (R32, log 7). -/
inductive Fault where
  /-- Raised by `Fx0A` when its wait never ends: a stuck state, "the step never completes" (R223,
  U23). Safe: the machine hangs, the model stops. Log 3. -/
  | keyWaitNeverEnds
deriving DecidableEq, Repr

/-- Why the model gives an instruction no meaning. -/
inductive Refusal where
  /-- Raised by an arm of exec whose instruction has no meaning yet; no arm is left in that state.
  Safe. -/
  | notModelled (mnemonic : String)
deriving DecidableEq, Repr

/-- The outcome of a step of this machine. -/
abbrev Result := Host.Outcome State Fault Refusal

end Sys2Proof.Machine
end

