-- ==== Sys2Proof/Machine/Ops.lean ====
section
/-! DEFINITION. The operations every meaning is written over: registers, memory, the display's
primitive, the program counter, taking a fault, and asking the environment. -/

namespace Sys2Proof.Machine

/-! ## Registers and plain fields -/

/-- `VF`, the flag register (R22). -/
def regF : Reg := 15

/-- `V[i]` (R13, R21). -/
def State.readV (s : State) (i : Reg) : Byte := s.V[i]

/-- `V[i] <- v` (R13, R21): no register is hardwired. -/
def State.writeV (s : State) (i : Reg) (v : Byte) : State := { s with V := s.V.set i v }

/-- `I <- v` (R26). -/
def State.setI (s : State) (v : Word) : State := { s with I := v }

/-- `dt <- v` (R27). -/
def State.setDt (s : State) (v : Byte) : State := { s with dt := v }

/-- `st <- v` (R27). -/
def State.setSt (s : State) (v : Byte) : State := { s with st := v }

/-- `pc <- v` (R23). -/
def State.setPc (s : State) (v : Word) : State := { s with pc := v }

/-- `sp <- v` (R28). -/
def State.setSp (s : State) (v : Byte) : State := { s with sp := v }

/-- `stack[i]`, defined for `i` up to 15 (R28); no rule reads further. -/
def State.readStack (s : State) (i : Nat) : Word := if h : i < 16 then s.stack[i] else 0

/-- `stack[i] <- v`, defined for `i` up to 15 (R28); no rule writes further. -/
def State.writeStack (s : State) (i : Nat) (v : Word) : State :=
  { s with stack := s.stack.setIfInBounds i v }

/-- `opcode <- v` (R29). -/
def State.setOpcode (s : State) (v : Word) : State := { s with opcode := v }

/-- `single_step <- v` (R31). -/
def State.setSingleStepFlag (s : State) (v : Bool) : State := { s with singleStep := v }

/-- `mem <- m` (R33). -/
def State.setMem (s : State) (m : Memory) : State := { s with mem := m }

/-- `pix <- g` (R34). -/
def State.setPix (s : State) (g : Grid) : State := { s with pix := g }

/-- `status <- v` (R32). -/
def State.setStatus (s : State) (v : RunStatus) : State := { s with status := v }

/-- The environment's answers left after a question. -/
def State.setEnv (s : State) (e : Env) : State := { s with env := e }

/-- The tone output: `tone_on = (st != 0)` (R38, R289). -/
def State.toneOn (s : State) : Bool := s.st != 0

/-! ## Program counter (R123) -/

/-- `pc <- (pc + 2) mod 65536`. -/
def State.advance (s : State) : State := s.setPc (s.pc + 2)

/-- `pc <- (pc + 4) mod 65536`, a taken skip. -/
def State.skip (s : State) : State := s.setPc (s.pc + 4)

/-- Ordinary completion: the advance is the last effect (R24, R123). -/
def complete (s : State) : Result := .next s.advance

/-! ## Taking a fault (R124, R280)

The block has no handler, no vector and no saved register: a fault latches `status` and leaves the
rest of the state as the step has mutated it so far; `pc` still addresses the faulting instruction.
There is no return from a fault (R281). -/

/-- `status <- Faulted(f)`, everything else as it is. -/
def State.raise (s : State) (f : FaultCause) : State := s.setStatus (.faulted f)

/-- End the step with a fault: a next state, in which the run is over. -/
def takeFault (f : FaultCause) (s : State) : Result := .next (s.raise f)

/-- A part of a step: it goes on with a state, or it has met a `raise` with the state as mutated up to
the failing access (R124). -/
abbrev Progress := Except (FaultCause × State) State

/-- The ending of an instruction whose last part is `p`: the advance, or the fault. -/
def finish : Progress → Result
  | .ok s => complete s
  | .error (f, s) => takeFault f s

/-! ## Memory (R64) -/

/-- What an address that no cell lists reads as: the reset content (R33, R310). -/
def Memory.unlisted : Byte := 0x00

/-- The byte at an address. -/
def Memory.read : Memory → Nat → Byte
  | [], _ => Memory.unlisted
  | (k, v) :: rest, a => if k = a then v else Memory.read rest a

/-- Take the cell of an address out. -/
def Memory.erase : Memory → Nat → Memory
  | [], _ => []
  | (k, v) :: rest, a => if k = a then Memory.erase rest a else (k, v) :: Memory.erase rest a

/-- Put a cell in, before the first cell of a higher address. -/
def Memory.insert : Memory → Nat → Byte → Memory
  | [], a, v => [(a, v)]
  | (k, w) :: rest, a, v =>
    if a < k then (a, v) :: (k, w) :: rest else (k, w) :: Memory.insert rest a v

/-- `mem[a] <- v`, keeping the canonical form: the reset content is not listed. -/
def Memory.write (m : Memory) (a : Nat) (v : Byte) : Memory :=
  if v = Memory.unlisted then m.erase a else (m.erase a).insert a v

/-- Addresses strictly rising, from `low` on. -/
def Memory.risingFrom : Nat → Memory → Bool
  | _, [] => true
  | low, (k, _) :: rest => decide (low ≤ k) && Memory.risingFrom (k + 1) rest

/-- The canonical form: addresses strictly rising and inside the address space, and no cell that
holds the reset content. -/
def Memory.wf (m : Memory) : Bool :=
  Memory.risingFrom 0 m && m.all (fun c => decide (c.1 < Config.memSize) && c.2 != Memory.unlisted)

/-- Bytes written one by one at rising addresses from `a`. -/
def Memory.writeBytes : Memory → Nat → List Byte → Memory
  | m, _, [] => m
  | m, a, b :: rest => Memory.writeBytes (m.write a b) (a + 1) rest

/-- The memory that holds `bytes` from address `a` on and the reset content elsewhere. -/
def Memory.ofBytes : Nat → List Byte → Memory
  | _, [] => []
  | a, b :: rest =>
    if b = Memory.unlisted then Memory.ofBytes (a + 1) rest
    else (a, b) :: Memory.ofBytes (a + 1) rest

/-- The address check in the access path: `addr > 0xFFF` (R64). -/
def addressOk (a : Nat) : Bool := a < Config.memSize

/-- `MemRead(a, 1)` (R64). -/
def memRead (a : Nat) (s : State) : Except FaultCause Byte :=
  if addressOk a then .ok (s.mem.read a) else .error (.outOfBounds (.address a))

/-- `MemWrite(a, 1, v)` (R64). -/
def memWrite (a : Nat) (v : Byte) (s : State) : Progress :=
  if addressOk a then .ok (s.setMem (s.mem.write a v))
  else .error (.outOfBounds (.address a), s)

/-! ## The display's primitive (R202) -/

/-- `pix[px][py]`; false off the grid, where the spec defines no pixel. -/
def Grid.get (g : Grid) (px py : Nat) : Bool :=
  if h : px < 64 ∧ py < 32 then (g[px]'h.1)[py]'h.2 else false

/-- Flip one pixel. -/
def Grid.toggle (g : Grid) (px py : Nat) : Grid :=
  if h : px < 64 ∧ py < 32 then
    g.set px ((g[px]'h.1).set py (!(g[px]'h.1)[py]'h.2) h.2) h.1
  else g

/-- The all-false grid (R201). -/
def Grid.clear : Grid := Vector.replicate 64 (Vector.replicate 32 false)

/-- A grid given by its pixels. -/
def Grid.ofFn (f : Nat → Nat → Bool) : Grid :=
  Vector.ofFn fun px => Vector.ofFn fun py => f px.val py.val

/-- Whether a position is on the grid (R204). -/
def onGrid (px py : Nat) : Bool := decide (px < Config.displayW) && decide (py < Config.displayH)

/-! ## Asking the environment (R14, R41) -/

/-- `RandomByte()`: the next listed answer, or a free one (R161). -/
def State.askRandomByte (s : State) : Byte × State :=
  match s.env.randomBytes with
  | b :: rest => (b, s.setEnv { s.env with randomBytes := rest })
  | [] => (Config.freeRandomByte s.env.asked, s.setEnv { s.env with asked := s.env.asked + 1 })

/-- `KeyDown(k)`: the next listed answer, or a free one (R220). All 8 bits of `k` are passed. -/
def State.askKeyDown (s : State) (k : Byte) : Bool × State :=
  match s.env.keyDowns with
  | b :: rest => (b, s.setEnv { s.env with keyDowns := rest })
  | [] => (Config.freeKeyDown s.env.asked k, s.setEnv { s.env with asked := s.env.asked + 1 })

/-- `WaitKey()`: the next listed answer, or a free key (R220, R223). -/
def State.askWaitKey (s : State) : WaitAnswer × State :=
  match s.env.keyWaits with
  | a :: rest => (a, s.setEnv { s.env with keyWaits := rest })
  | [] => (.key (Config.freeKey s.env.asked), s.setEnv { s.env with asked := s.env.asked + 1 })

/-- `SinkApply(px, py, v)`: whether the sink accepts one pixel (R208, R209). -/
def State.askSink (s : State) : Bool × State :=
  match s.env.sinkFailsAfter with
  | none => (true, s)
  | some 0 => (false, s)
  | some (k + 1) => (true, s.setEnv { s.env with sinkFailsAfter := some k })

end Sys2Proof.Machine
end

