-- ==== Sys2Proof/Machine/Clocks.lean ====
section
/-! DEFINITION. The tick source (60_exceptions.md R291, R292). Times are in microseconds of the
environment's monotonic clock. -/

namespace Sys2Proof.Machine

/-- The period `1_000_000 / frequency` (R291). Whether a fraction of a microsecond is truncated is not
stated: a free value chooses (log 12). -/
def clockPeriod (frequency : Nat) : Nat :=
  if frequency = 0 then Config.freePeriodAtZero 0
  else
    1000000 / frequency
      + (if 1000000 % frequency ≠ 0 ∧ Config.freePeriodRoundsUp frequency then 1 else 0)

/-- `start()`: the first deadline is one period from now (R291). -/
def startClock (now : Nat) (c : Clock) : Clock :=
  { c with nextTick := some (now + clockPeriod c.frequency) }

/-- Whether `poll()` at `now` ticks (R292). Before `start()` the answer is not stated: a free value
(log 13). -/
def clockDue (now : Nat) (c : Clock) : Bool :=
  match c.nextTick with
  | some deadline => decide (deadline ≤ now)
  | none => Config.freePollUnstarted c.frequency now

/-- The clock after a `poll()`: on a tick it counts once and the next deadline is measured from now,
so that missed ticks are lost (R292; the spec's decision D40); otherwise it is unchanged. -/
def pollClock (now : Nat) (c : Clock) : Clock :=
  if clockDue now c then
    { c with tickCount := c.tickCount + 1, nextTick := some (now + clockPeriod c.frequency) }
  else c

end Sys2Proof.Machine
end

