-- ==== Sys2Proof/WellFormed.lean ====
section
/-! DEFINITION. Which terms of `Instr` stand for an instruction word: `SYS` may not carry the two
words of group 0 that are `CLS` and `RET`, and `illegal` may carry only an illegal word. Every other
operand value is legal (30_encoding.md R93). -/

namespace Sys2Proof

/-- The 17488 illegal words, group by group as R100 lists them. -/
def illegalWord (w : Word) : Bool :=
  let a := w.extractLsb' 12 4
  let d := w.extractLsb' 0 4
  let kk := w.extractLsb' 0 8
  (a == 0x5#4 && d != 0x0#4)
    || (a == 0x8#4 && [0x8#4, 0x9#4, 0xA#4, 0xB#4, 0xC#4, 0xD#4, 0xF#4].contains d)
    || (a == 0x9#4 && d != 0x0#4)
    || (a == 0xE#4 && !([0x9E#8, 0xA1#8].contains kk))
    || (a == 0xF#4
        && !([0x07#8, 0x0A#8, 0x15#8, 0x18#8, 0x1E#8, 0x29#8, 0x33#8, 0x55#8, 0x65#8].contains kk))

/-- A term that is the decoding of some word (R94, R100, R101). -/
def Instr.wellFormed : Instr → Bool
  | .sys nnn => nnn != 0x0E0#12 && nnn != 0x0EE#12
  | .illegal w => illegalWord w
  | .cls | .ret | .jp _ | .call _ | .seImm _ _ | .sneImm _ _ | .seReg _ _ | .ldImm _ _
  | .addImm _ _ | .ldReg _ _ | .orReg _ _ | .andReg _ _ | .xorReg _ _ | .addReg _ _
  | .subReg _ _ | .shr _ _ | .subn _ _ | .shl _ _ | .sneReg _ _ | .ldI _ | .jpV0 _
  | .rnd _ _ | .drw _ _ _ | .skp _ | .sknp _ | .ldVxDt _ | .ldVxK _ | .ldDtVx _ | .ldStVx _
  | .addI _ | .ldF _ | .ldB _ | .ldMemVx _ | .ldVxMem _ => true

end Sys2Proof
end

