-- ==== Sys2Proof/Decode.lean ====
section
/-! DEFINITION. The decoder, total on every word and on any bytes, the encoder written from the same
encoding tables, and the opcode map of 30_encoding.md R95 as data. -/

namespace Sys2Proof

/-! ## Fields (R91) -/

/-- `a = w[15:12]`, the primary opcode. -/
def fieldA (w : Word) : Nibble := w.extractLsb' 12 4

/-- `b = w[11:8]`, as the register index `x`. -/
def fieldX (w : Word) : Reg := (w.extractLsb' 8 4).toFin

/-- `c = w[7:4]`, as the register index `y`. -/
def fieldY (w : Word) : Reg := (w.extractLsb' 4 4).toFin

/-- `d = w[3:0]`, the secondary opcode or the sprite height `n`. -/
def fieldN (w : Word) : Nibble := w.extractLsb' 0 4

/-- `kk = w[7:0]`. -/
def fieldKK (w : Word) : Byte := w.extractLsb' 0 8

/-- `nnn = w[11:0]`. -/
def fieldNNN (w : Word) : Addr := w.extractLsb' 0 12

/-! ## Decoding (R94) -/

/-- Group 0: the two FIXED words take priority over `SYS` (R94 steps 1 and 3, R101). -/
def decodeGroup0 (nnn : Addr) : Instr :=
  if nnn = 0x0E0#12 then .cls
  else if nnn = 0x0EE#12 then .ret
  else .sys nnn

/-- Group 8: the low nibble selects the operation (R94 step 5, R96). -/
def decodeGroup8 (w : Word) (x y : Reg) (d : Nibble) : Instr :=
  if d = 0x0#4 then .ldReg x y
  else if d = 0x1#4 then .orReg x y
  else if d = 0x2#4 then .andReg x y
  else if d = 0x3#4 then .xorReg x y
  else if d = 0x4#4 then .addReg x y
  else if d = 0x5#4 then .subReg x y
  else if d = 0x6#4 then .shr x y
  else if d = 0x7#4 then .subn x y
  else if d = 0xE#4 then .shl x y
  else .illegal w

/-- Group E: the low byte selects the operation (R94 step 6, R97). -/
def decodeGroupE (w : Word) (x : Reg) (kk : Byte) : Instr :=
  if kk = 0x9E#8 then .skp x
  else if kk = 0xA1#8 then .sknp x
  else .illegal w

/-- Group F: the low byte selects the operation (R94 step 7, R97). -/
def decodeGroupF (w : Word) (x : Reg) (kk : Byte) : Instr :=
  if kk = 0x07#8 then .ldVxDt x
  else if kk = 0x0A#8 then .ldVxK x
  else if kk = 0x15#8 then .ldDtVx x
  else if kk = 0x18#8 then .ldStVx x
  else if kk = 0x1E#8 then .addI x
  else if kk = 0x29#8 then .ldF x
  else if kk = 0x33#8 then .ldB x
  else if kk = 0x55#8 then .ldMemVx x
  else if kk = 0x65#8 then .ldVxMem x
  else .illegal w

/-- The decoder: a total function from the 65536 words (R94). A word of no row is `illegal`, which
is an outcome of decoding and not a refusal (R100, R102). -/
def decode (w : Word) : Instr :=
  let a := fieldA w
  let x := fieldX w
  let y := fieldY w
  if a = 0x0#4 then decodeGroup0 (fieldNNN w)
  else if a = 0x1#4 then .jp (fieldNNN w)
  else if a = 0x2#4 then .call (fieldNNN w)
  else if a = 0x3#4 then .seImm x (fieldKK w)
  else if a = 0x4#4 then .sneImm x (fieldKK w)
  else if a = 0x5#4 then (if fieldN w = 0x0#4 then .seReg x y else .illegal w)
  else if a = 0x6#4 then .ldImm x (fieldKK w)
  else if a = 0x7#4 then .addImm x (fieldKK w)
  else if a = 0x8#4 then decodeGroup8 w x y (fieldN w)
  else if a = 0x9#4 then (if fieldN w = 0x0#4 then .sneReg x y else .illegal w)
  else if a = 0xA#4 then .ldI (fieldNNN w)
  else if a = 0xB#4 then .jpV0 (fieldNNN w)
  else if a = 0xC#4 then .rnd x (fieldKK w)
  else if a = 0xD#4 then .drw x y (fieldN w)
  else if a = 0xE#4 then decodeGroupE w x (fieldKK w)
  else decodeGroupF w x (fieldKK w)

/-- Why a byte sequence gives no instruction. -/
inductive DecodeError where
  /-- Fewer than the two bytes of an instruction (R90). -/
  | truncated
deriving DecidableEq, Repr

/-- Decode the first instruction of a byte sequence, high byte first (R66, R90): the instruction and
the bytes after it. -/
def decodeBytes : List Byte → Except DecodeError (Instr × List Byte)
  | hi :: lo :: rest => .ok (decode (Word.ofBytes hi lo), rest)
  | _ => .error .truncated

/-! ## Encoding (R92) -/

/-- A register index as its 4-bit field. -/
def regField (r : Reg) : Nibble := BitVec.ofNat 4 r.val

/-- Format `NNN`: opcode, `nnn`. -/
def encNNN (a : Nibble) (nnn : Addr) : Word := a ++ nnn

/-- Formats `XKK` and `X`: opcode, `x`, `kk` (or the secondary opcode byte). -/
def encXKK (a : Nibble) (x : Reg) (kk : Byte) : Word := a ++ regField x ++ kk

/-- Formats `XY` and `XYN`: opcode, `x`, `y`, the low nibble. -/
def encXYN (a : Nibble) (x y : Reg) (d : Nibble) : Word := a ++ regField x ++ regField y ++ d

/-- The word of an instruction (R92, R95). -/
def encode : Instr → Word
  | .cls => 0x00E0#16
  | .ret => 0x00EE#16
  | .sys nnn => encNNN 0x0#4 nnn
  | .jp nnn => encNNN 0x1#4 nnn
  | .call nnn => encNNN 0x2#4 nnn
  | .seImm x kk => encXKK 0x3#4 x kk
  | .sneImm x kk => encXKK 0x4#4 x kk
  | .seReg x y => encXYN 0x5#4 x y 0x0#4
  | .ldImm x kk => encXKK 0x6#4 x kk
  | .addImm x kk => encXKK 0x7#4 x kk
  | .ldReg x y => encXYN 0x8#4 x y 0x0#4
  | .orReg x y => encXYN 0x8#4 x y 0x1#4
  | .andReg x y => encXYN 0x8#4 x y 0x2#4
  | .xorReg x y => encXYN 0x8#4 x y 0x3#4
  | .addReg x y => encXYN 0x8#4 x y 0x4#4
  | .subReg x y => encXYN 0x8#4 x y 0x5#4
  | .shr x y => encXYN 0x8#4 x y 0x6#4
  | .subn x y => encXYN 0x8#4 x y 0x7#4
  | .shl x y => encXYN 0x8#4 x y 0xE#4
  | .sneReg x y => encXYN 0x9#4 x y 0x0#4
  | .ldI nnn => encNNN 0xA#4 nnn
  | .jpV0 nnn => encNNN 0xB#4 nnn
  | .rnd x kk => encXKK 0xC#4 x kk
  | .drw x y n => encXYN 0xD#4 x y n
  | .skp x => encXKK 0xE#4 x 0x9E#8
  | .sknp x => encXKK 0xE#4 x 0xA1#8
  | .ldVxDt x => encXKK 0xF#4 x 0x07#8
  | .ldVxK x => encXKK 0xF#4 x 0x0A#8
  | .ldDtVx x => encXKK 0xF#4 x 0x15#8
  | .ldStVx x => encXKK 0xF#4 x 0x18#8
  | .addI x => encXKK 0xF#4 x 0x1E#8
  | .ldF x => encXKK 0xF#4 x 0x29#8
  | .ldB x => encXKK 0xF#4 x 0x33#8
  | .ldMemVx x => encXKK 0xF#4 x 0x55#8
  | .ldVxMem x => encXKK 0xF#4 x 0x65#8
  | .illegal w => w

/-- The two bytes of an instruction as memory holds them, high byte first (R66). -/
def encodeBytes (i : Instr) : List Byte := [(encode i).highByte, (encode i).lowByte]

/-! ## The opcode map as data (R94, R95) -/

/-- The mnemonic of an instruction's row, letter for letter as spec/opcode_table.json spells it. -/
def Instr.mnemonic : Instr → String
  | .cls => "CLS"
  | .ret => "RET"
  | .sys _ => "SYS_nnn"
  | .jp _ => "JP_nnn"
  | .call _ => "CALL_nnn"
  | .seImm _ _ => "SE_Vx__kk"
  | .sneImm _ _ => "SNE_Vx__kk"
  | .seReg _ _ => "SE_Vx__Vy"
  | .ldImm _ _ => "LD_Vx__kk"
  | .addImm _ _ => "ADD_Vx__kk"
  | .ldReg _ _ => "LD_Vx__Vy"
  | .orReg _ _ => "OR_Vx__Vy"
  | .andReg _ _ => "AND_Vx__Vy"
  | .xorReg _ _ => "XOR_Vx__Vy"
  | .addReg _ _ => "ADD_Vx__Vy"
  | .subReg _ _ => "SUB_Vx__Vy"
  | .shr _ _ => "SHR_Vx"
  | .subn _ _ => "SUBN_Vx__Vy"
  | .shl _ _ => "SHL_Vx"
  | .sneReg _ _ => "SNE_Vx__Vy"
  | .ldI _ => "LD_I__nnn"
  | .jpV0 _ => "JP_V0__nnn"
  | .rnd _ _ => "RND_Vx__kk"
  | .drw _ _ _ => "DRW_Vx__Vy__n"
  | .skp _ => "SKP_Vx"
  | .sknp _ => "SKNP_Vx"
  | .ldVxDt _ => "LD_Vx__DT"
  | .ldVxK _ => "LD_Vx__K"
  | .ldDtVx _ => "LD_DT__Vx"
  | .ldStVx _ => "LD_ST__Vx"
  | .addI _ => "ADD_I__Vx"
  | .ldF _ => "LD_F__Vx"
  | .ldB _ => "LD_B__Vx"
  | .ldMemVx _ => "LD__I___Vx"
  | .ldVxMem _ => "LD_Vx___I"
  | .illegal _ => "ILLEGAL__no-op"

/-- A row of the opcode map: a word `w` matches it when `w AND mask = pattern` and `w` is not among
the words the row excludes (R94). -/
structure OpcodeRow where
  mnemonic : String
  pattern : Word
  mask : Word
  excludes : List Word
deriving DecidableEq, Repr

/-- The 35 rows of R95, in its order. The catch-all row is what no row matches. -/
def opcodeRows : List OpcodeRow :=
  [⟨"CLS", 0x00E0, 0xFFFF, []⟩, ⟨"RET", 0x00EE, 0xFFFF, []⟩,
   ⟨"SYS_nnn", 0x0000, 0xF000, [0x00E0, 0x00EE]⟩, ⟨"JP_nnn", 0x1000, 0xF000, []⟩,
   ⟨"CALL_nnn", 0x2000, 0xF000, []⟩, ⟨"SE_Vx__kk", 0x3000, 0xF000, []⟩] ++
  [⟨"SNE_Vx__kk", 0x4000, 0xF000, []⟩, ⟨"SE_Vx__Vy", 0x5000, 0xF00F, []⟩,
   ⟨"LD_Vx__kk", 0x6000, 0xF000, []⟩, ⟨"ADD_Vx__kk", 0x7000, 0xF000, []⟩,
   ⟨"LD_Vx__Vy", 0x8000, 0xF00F, []⟩, ⟨"OR_Vx__Vy", 0x8001, 0xF00F, []⟩] ++
  [⟨"AND_Vx__Vy", 0x8002, 0xF00F, []⟩, ⟨"XOR_Vx__Vy", 0x8003, 0xF00F, []⟩,
   ⟨"ADD_Vx__Vy", 0x8004, 0xF00F, []⟩, ⟨"SUB_Vx__Vy", 0x8005, 0xF00F, []⟩,
   ⟨"SHR_Vx", 0x8006, 0xF00F, []⟩, ⟨"SUBN_Vx__Vy", 0x8007, 0xF00F, []⟩] ++
  [⟨"SHL_Vx", 0x800E, 0xF00F, []⟩, ⟨"SNE_Vx__Vy", 0x9000, 0xF00F, []⟩,
   ⟨"LD_I__nnn", 0xA000, 0xF000, []⟩, ⟨"JP_V0__nnn", 0xB000, 0xF000, []⟩,
   ⟨"RND_Vx__kk", 0xC000, 0xF000, []⟩, ⟨"DRW_Vx__Vy__n", 0xD000, 0xF000, []⟩] ++
  [⟨"SKP_Vx", 0xE09E, 0xF0FF, []⟩, ⟨"SKNP_Vx", 0xE0A1, 0xF0FF, []⟩,
   ⟨"LD_Vx__DT", 0xF007, 0xF0FF, []⟩, ⟨"LD_Vx__K", 0xF00A, 0xF0FF, []⟩,
   ⟨"LD_DT__Vx", 0xF015, 0xF0FF, []⟩, ⟨"LD_ST__Vx", 0xF018, 0xF0FF, []⟩] ++
  [⟨"ADD_I__Vx", 0xF01E, 0xF0FF, []⟩, ⟨"LD_F__Vx", 0xF029, 0xF0FF, []⟩,
   ⟨"LD_B__Vx", 0xF033, 0xF0FF, []⟩, ⟨"LD__I___Vx", 0xF055, 0xF0FF, []⟩,
   ⟨"LD_Vx___I", 0xF065, 0xF0FF, []⟩]

/-- A word matches a row (R94). -/
def OpcodeRow.matchesWord (r : OpcodeRow) (w : Word) : Bool :=
  w &&& r.mask == r.pattern && !r.excludes.contains w

/-! ## The decoder seen from the opcode table -/

/-- What the decoder reads from an instruction whose bits are `w`, numbered as
spec/opcode_table.json numbers them. Every instruction is one 16-bit word (R90), so the bits are the
word's; they are laid out high byte first, as memory holds them, and given to the decoder. -/
def decodeTableWord (nbits w : Nat) : Option Instr :=
  if nbits ≤ 16 then
    let word : Word := BitVec.ofNat 16 (w % 2 ^ nbits)
    match decodeBytes [word.highByte, word.lowByte] with
    | .ok (i, _) => some i
    | .error _ => none
  else none

end Sys2Proof
end

