-- ==== Sys2Proof/Machine/Flags.lean ====
section
/-! DEFINITION. Every flag computation of the instruction set (41_alu.md R162) and the write order of
the flag-writing instructions (R163). The flag is the register `VF` (R22). -/

namespace Sys2Proof.Machine

/-- A flag as the byte that `VF` gets: `0x00` or `0x01` (R22). -/
def flagByte (b : Bool) : Byte := if b then 0x01 else 0x00

/-- Carry of an addition: the exact sum exceeds 255 (R162). -/
def carryOut (p q : Byte) : Bool := decide (p.toNat + q.toNat > 255)

/-- No borrow of the subtraction `p - q`: `p >= q` (R162; at equality the spec's decision D10). -/
def noBorrow (p q : Byte) : Bool := decide (q.toNat ≤ p.toNat)

/-- The bit a right shift drops: bit 0 (R162). -/
def lowBit (p : Byte) : Bool := p.getLsbD 0

/-- The bit a left shift drops: bit 7 (R162). -/
def highBit (p : Byte) : Bool := p.getLsbD 7

/-- `V[x]` gets the result, and last `V[0xF]` gets the flag, so that the flag stays when `x = 0xF`
(R163; the spec's decision D9). -/
def State.writeResultAndFlag (s : State) (x : Reg) (result : Byte) (flag : Bool) : State :=
  (s.writeV x result).writeV regF (flagByte flag)

end Sys2Proof.Machine
end

