-- ==== Sys2Proof/Machine/Alu.lean ====
section
/-! DEFINITION. Register load, arithmetic, logic, shift and random instructions (41_alu.md). None of
them can fault. -/

namespace Sys2Proof.Machine

/-- R150. -/
def execLdImm (x : Reg) (kk : Byte) (s : State) : Result := complete (s.writeV x kk)

/-- R151: the sum wraps and no flag is written. -/
def execAddImm (x : Reg) (kk : Byte) (s : State) : Result :=
  complete (s.writeV x (s.readV x + kk))

/-- R152. -/
def execLdReg (x y : Reg) (s : State) : Result := complete (s.writeV x (s.readV y))

/-- R153: `VF` is not written (the spec's decision D11). -/
def execOrReg (x y : Reg) (s : State) : Result :=
  complete (s.writeV x (s.readV x ||| s.readV y))

/-- R154: `VF` is not written (D11). -/
def execAndReg (x y : Reg) (s : State) : Result :=
  complete (s.writeV x (s.readV x &&& s.readV y))

/-- R155: `VF` is not written (D11). -/
def execXorReg (x y : Reg) (s : State) : Result :=
  complete (s.writeV x (s.readV x ^^^ s.readV y))

/-- R156. -/
def execAddReg (x y : Reg) (s : State) : Result :=
  let p := s.readV x
  let q := s.readV y
  complete (s.writeResultAndFlag x (p + q) (carryOut p q))

/-- R157. -/
def execSubReg (x y : Reg) (s : State) : Result :=
  let p := s.readV x
  let q := s.readV y
  complete (s.writeResultAndFlag x (p - q) (noBorrow p q))

/-- R158: `V[x]` is shifted in place and `y` is ignored (the spec's decision D8). -/
def execShr (x _y : Reg) (s : State) : Result :=
  let p := s.readV x
  complete (s.writeResultAndFlag x (p >>> 1) (lowBit p))

/-- R159. -/
def execSubn (x y : Reg) (s : State) : Result :=
  let p := s.readV x
  let q := s.readV y
  complete (s.writeResultAndFlag x (q - p) (noBorrow q p))

/-- R160: `V[x]` is shifted in place and `y` is ignored (D8). -/
def execShl (x _y : Reg) (s : State) : Result :=
  let p := s.readV x
  complete (s.writeResultAndFlag x (p <<< 1) (highBit p))

/-- R161: the random byte is the environment's. -/
def execRnd (x : Reg) (kk : Byte) (s : State) : Result :=
  let (r, s) := s.askRandomByte
  complete (s.writeV x (r &&& kk))

end Sys2Proof.Machine
end

