-- ==== Sys2Proof/Machine/Operands.lean ====
section
/-! DEFINITION. The operand forms of the instruction set: immediates, the one data addressing mode,
jump targets, register runs, glyph addresses, decimal digits (30_encoding.md R93, 42_index_memory.md
R186). -/

namespace Sys2Proof.Machine

/-- `zext_16(nnn)`: a 12-bit immediate as a 16-bit address (R93). -/
def zext16 (nnn : Addr) : Word := nnn.setWidth 16

/-- The data address `I + i`, an unbounded integer (R186). -/
def indexAddr (s : State) (i : Nat) : Nat := s.I.toNat + i

/-- The target of `Bnnn` (R129): the absolute sum, or the legacy `pc`-relative one where the parameter
`BNNN_RELATIVE` selects it. -/
def jumpV0Target (s : State) (nnn : Addr) : Word :=
  if Config.bnnnRelative then s.pc + (s.readV 0).setWidth 16 + zext16 nnn
  else (s.readV 0).setWidth 16 + zext16 nnn

/-- The registers `V0` to `Vx` in ascending order (R184, R185). -/
def regRun (x : Reg) : List Reg := (List.finRange 16).take (x.val + 1)

/-- The base address of glyph `d`: `FONT_BASE + 5 * d` (R62, R182). -/
def glyphAddr (d : Nat) : Word := BitVec.ofNat 16 (Config.fontBase + Config.fontGlyphBytes * d)

/-- The decimal digits of a byte: hundreds, tens, ones (R183). -/
def decimalDigits (v : Byte) : Byte × Byte × Byte :=
  (BitVec.ofNat 8 (v.toNat / 100), BitVec.ofNat 8 (v.toNat / 10 % 10), BitVec.ofNat 8 (v.toNat % 10))

/-- The ending of a conditional skip (R123, R130): it adds 4 or 2 and looks at no skipped word. -/
def skipWhen (taken : Bool) (s : State) : Result :=
  .next (if taken then s.skip else s.advance)

end Sys2Proof.Machine
end

