-- ==== Sys2Proof/Machine/ControlFlow.lean ====
section
/-! DEFINITION. SYS, illegal words, RET, jumps, CALL and the register skips (40_control_flow.md). -/

namespace Sys2Proof.Machine

/-- R125: a legacy system call is ignored. -/
def execSys (_nnn : Addr) (s : State) : Result := complete s

/-- R134: an illegal word is a no-op and not a fault. -/
def execIllegal (_w : Word) (s : State) : Result := complete s

/-- R126: underflow first, then the out-of-range `sp` that only a restore can produce (the spec's
decision D6), then the decrement and the load of `pc`. -/
def execRet (s : State) : Result :=
  if s.sp = 0 then takeFault .stackUnderflow s
  else if Config.stackDepth < s.sp.toNat then takeFault .stackOverflow s
  else .next ((s.setSp (s.sp - 1)).setPc (s.readStack (s.sp.toNat - 1)))

/-- R127. -/
def execJp (nnn : Addr) (s : State) : Result := .next (s.setPc (zext16 nnn))

/-- R128: the pushed value is the address after the call (the spec's decision D5). -/
def execCall (nnn : Addr) (s : State) : Result :=
  if Config.stackDepth ≤ s.sp.toNat then takeFault .stackOverflow s
  else .next (((s.writeStack s.sp.toNat (s.pc + 2)).setSp (s.sp + 1)).setPc (zext16 nnn))

/-- R129. -/
def execJpV0 (nnn : Addr) (s : State) : Result := .next (s.setPc (jumpV0Target s nnn))

/-- R130. -/
def execSeImm (x : Reg) (kk : Byte) (s : State) : Result := skipWhen (s.readV x == kk) s

/-- R131. -/
def execSneImm (x : Reg) (kk : Byte) (s : State) : Result := skipWhen (s.readV x != kk) s

/-- R132. -/
def execSeReg (x y : Reg) (s : State) : Result := skipWhen (s.readV x == s.readV y) s

/-- R133. -/
def execSneReg (x y : Reg) (s : State) : Result := skipWhen (s.readV x != s.readV y) s

end Sys2Proof.Machine
end

