-- ==== Sys2Proof/Machine/Display.lean ====
section
/-! DEFINITION. The XOR-write engine and the display instructions (43_display.md). -/

namespace Sys2Proof.Machine

/-- R206: `clear()` (R201); no flag, no sink traffic. -/
def execCls (s : State) : Result := complete (s.setPix Grid.clear)

/-- One set sprite bit: off the grid it raises (R204); otherwise `draw_pixel` flips the pixel, tells
the sink, and ORs the collision into `VF`, in that order (R202, R203, R209). -/
def drawBit (px py : Nat) (s : State) : Progress :=
  if onGrid px py then
    let hit := s.pix.get px py
    match (s.setPix (s.pix.toggle px py)).askSink with
    | (true, s1) => .ok (s1.writeV regF (s1.readV regF ||| flagByte hit))
    | (false, s1) => .error (.subsystemError, s1)
  else .error (.outOfBounds (.pixel px py), s)

/-- `draw_row` over the listed bit positions, 0 being the most significant bit; a zero bit touches
nothing (R203). -/
def drawRow (x0 y : Nat) (byte : Byte) : List Nat → State → Progress
  | [], s => .ok s
  | i :: rest, s =>
    if byte.getLsbD (7 - i) then
      match drawBit (x0 + i) y s with
      | .error e => .error e
      | .ok s1 => drawRow x0 y byte rest s1
    else drawRow x0 y byte rest s

/-- The rows of a sprite in order: each row's byte is read just before the row is drawn (R207). -/
def drawRows (x0 y0 base : Nat) : List Nat → State → Progress
  | [], s => .ok s
  | r :: rest, s =>
    match memRead (base + r) s with
    | .error f => .error (f, s)
    | .ok byte =>
      match drawRow x0 (y0 + r) byte (List.range 8) s with
      | .error e => .error e
      | .ok s1 => drawRows x0 y0 base rest s1

/-- R207: the operands are latched, then `VF` is cleared, then the rows are drawn. -/
def execDrw (x y : Reg) (n : Nibble) (s : State) : Result :=
  let x0 := (s.readV x).toNat
  let y0 := (s.readV y).toNat
  let base := s.I.toNat
  finish (drawRows x0 y0 base (List.range n.toNat) (s.writeV regF 0))

end Sys2Proof.Machine
end

