-- ==== Sys2Proof/Machine/IndexMemory.lean ====
section
/-! DEFINITION. Index register and memory instructions (42_index_memory.md). -/

namespace Sys2Proof.Machine

/-- R180. -/
def execLdI (nnn : Addr) (s : State) : Result := complete (s.setI (zext16 nnn))

/-- R181: the sum wraps at 16 bits and no flag is written (the spec's decision D12). -/
def execAddI (x : Reg) (s : State) : Result :=
  complete (s.setI (s.I + (s.readV x).setWidth 16))

/-- R182: a digit above `0xF` raises `OutOfBounds` (the spec's decision D13). -/
def execLdF (x : Reg) (s : State) : Result :=
  let d := (s.readV x).toNat
  if d < Config.fontCount then complete (s.setI (glyphAddr d))
  else takeFault (.outOfBounds (.digit d)) s

/-- The three stores of `Fx33`, most significant digit first (R183). -/
def storeDigits (v : Byte) (s : State) : Progress :=
  let (hundreds, tens, ones) := decimalDigits v
  match memWrite (indexAddr s 0) hundreds s with
  | .error e => .error e
  | .ok s1 =>
    match memWrite (indexAddr s 1) tens s1 with
    | .error e => .error e
    | .ok s2 => memWrite (indexAddr s 2) ones s2

/-- R183: one check before the first write, so that all three bytes are written or none. -/
def execLdB (x : Reg) (s : State) : Result :=
  if Config.programEnd - 2 ≤ s.I.toNat then takeFault (.outOfBounds (.address s.I.toNat)) s
  else finish (storeDigits (s.readV x) s)

/-- The loop of `Fx55` over a register run: each address is checked just before its write (R184). -/
def storeRegs : List Reg → State → Progress
  | [], s => .ok s
  | i :: rest, s =>
    let addr := indexAddr s i.val
    if Config.programEnd ≤ addr then .error (.outOfBounds (.address addr), s)
    else
      match memWrite addr (s.readV i) s with
      | .error e => .error e
      | .ok s1 => storeRegs rest s1

/-- R184. -/
def execLdMemVx (x : Reg) (s : State) : Result := finish (storeRegs (regRun x) s)

/-- The loop of `Fx65` over a register run: it stops at the first failing address (R185; the spec's
decision D16). -/
def loadRegs : List Reg → State → Progress
  | [], s => .ok s
  | i :: rest, s =>
    let addr := indexAddr s i.val
    if Config.programEnd ≤ addr then .error (.outOfBounds (.address addr), s)
    else
      match memRead addr s with
      | .error f => .error (f, s)
      | .ok v => loadRegs rest (s.writeV i v)

/-- R185. -/
def execLdVxMem (x : Reg) (s : State) : Result := finish (loadRegs (regRun x) s)

end Sys2Proof.Machine
end

