-- ==== Sys2Proof/Machine/KeypadTimers.lean ====
section
/-! DEFINITION. Keypad and timer instructions (44_keypad_timers.md) and the timer tick
(60_exceptions.md R287). -/

namespace Sys2Proof.Machine

/-- R221: the query passes all 8 bits of `V[x]`. -/
def execSkp (x : Reg) (s : State) : Result :=
  let (down, s) := s.askKeyDown (s.readV x)
  skipWhen down s

/-- R222. -/
def execSknp (x : Reg) (s : State) : Result :=
  let (down, s) := s.askKeyDown (s.readV x)
  skipWhen (!down) s

/-- R223: the wait is inside the step. A key press completes it; a quit request ends the run with
`V[x]` and `pc` unchanged (R277, log 4); a wait that nothing ends is a stuck state (log 3). -/
def execLdVxK (x : Reg) (s : State) : Result :=
  match s.askWaitKey with
  | (.key k, s1) => complete (s1.writeV x k)
  | (.quit, s1) => .next (s1.setStatus .quit)
  | (.never, _) => .fault .keyWaitNeverEnds

/-- R224. -/
def execLdVxDt (x : Reg) (s : State) : Result := complete (s.writeV x s.dt)

/-- R225. -/
def execLdDtVx (x : Reg) (s : State) : Result := complete (s.setDt (s.readV x))

/-- R226. -/
def execLdStVx (x : Reg) (s : State) : Result := complete (s.setSt (s.readV x))

/-- A timer's countdown: it stops at zero (R287; the spec's decision D22). -/
def countDown (t : Byte) : Byte := if t = 0 then 0 else t - 1

/-- `TimerTick()` (R287): nothing but the two timers, and not gated by `paused`. -/
def timerTick (s : State) : State := (s.setDt (countDown s.dt)).setSt (countDown s.st)

end Sys2Proof.Machine
end

