-- ==== Sys2Proof/Machine/Cycle.lean ====
section
/-! DEFINITION. The CPU's step operation: the pause gate, the single-step request, the fetch and the
execution (40_control_flow.md R120 to R122). -/

namespace Sys2Proof.Machine

/-- `Fetch(pc)`: two bytes, high byte first, both inside memory, from any `pc`, odd or even (R66, R67,
R68; the bound is the spec's decision D2). -/
def fetch (s : State) : Except FaultCause Word :=
  if addressOk (s.pc.toNat + 1) then
    .ok (Word.ofBytes (s.mem.read s.pc.toNat) (s.mem.read (s.pc.toNat + 1)))
  else .error (.outOfBounds (.address s.pc.toNat))

/-- The pause gate closes a step (R121). -/
def gated (s : State) : Bool := s.paused && !s.singleStep

/-- `Step()` of a running machine (R120): a gated step changes nothing; any other step clears
`single_step` before it fetches (R122), writes `opcode` when the fetch succeeds (R29), and executes
the decoded instruction. -/
def cpuStep (s : State) : Result :=
  if gated s then .next s
  else
    let s1 := s.setSingleStepFlag false
    match fetch s1 with
    | .error f => takeFault f s1
    | .ok w => exec (decode w) (s1.setOpcode w)

end Sys2Proof.Machine
end

