-- ==== Sys2Proof/Machine/Loader.lean ====
section
/-! DEFINITION. The loader operations of the Memory unit (20_memory.md R77 to R79). They happen between
steps. -/

namespace Sys2Proof.Machine

/-- `load_font()`: the font's bytes from `FONT_BASE` on, and nothing else (R77). -/
def loadFont (font : List Byte) (s : State) : State :=
  s.setMem (s.mem.writeBytes Config.fontBase font)

/-- `load_program(bytes)`: unreadable is `IOError`, more than 3584 bytes is `DataError`; otherwise the
bytes go to `0x200` on and their number is recorded. A failure changes nothing (R78). -/
def loadProgram (source : Option (List Byte)) (s : State) : Except FaultCause State :=
  match source with
  | none => .error .ioError
  | some bytes =>
    if Config.programMax < bytes.length then .error (.dataError .oversizedProgram)
    else
      .ok { s with
        mem := s.mem.writeBytes Config.programStart bytes
        programLength := bytes.length }

/-- Memory `reset()`: `0x200` to `0xFFF` become zero and everything below stays (R79). That
`program_length` becomes 0 is the spec's decision D34. -/
def memoryReset (s : State) : State :=
  { s with
    mem := s.mem.filter fun c =>
      decide (c.1 < Config.programStart) || decide (Config.memSize ≤ c.1)
    programLength := 0 }

end Sys2Proof.Machine
end

