-- ==== Sys2Proof/Machine/Savestate.lean ====
section
/-! DEFINITION. The savestate codec (45_savestate_codec.md): the layout of R241, `capture` and the
staged `restore`. -/

namespace Sys2Proof.Machine

/-- The header tag `"K8E"`, NUL (R243). -/
def headerTag : List Byte := [0x4B, 0x38, 0x45, 0x00]

/-- The footer tag `"FIN"`, NUL (R243). -/
def footerTag : List Byte := [0x46, 0x49, 0x4E, 0x00]

/-- Byte `o` of a byte sequence. -/
def byteAt (b : List Byte) (o : Nat) : Byte := b.getD o 0

/-- A little-endian field: the low byte at `o`, the high byte after it (R242). -/
def wordAt (b : List Byte) (o : Nat) : Word := Word.ofBytes (byteAt b (o + 1)) (byteAt b o)

/-- One byte of a little-endian field: 0 is the low byte, 1 the high byte (R242). -/
def wordByte (w : Word) (k : Nat) : Byte := if k = 0 then w.lowByte else w.highByte

/-- The packed display byte of row `py` and columns `8 * j` to `8 * j + 7`: bit `7 - k` is pixel
`(8 * j + k, py)` (R244). -/
def packedByte (g : Grid) (py j : Nat) : Byte :=
  BitVec.ofFnLE fun (m : Fin 8) => g.get (8 * j + (7 - m.val)) py

/-- Byte `o` of the image (R241, R245). -/
def captureByte (s : State) (o : Nat) : Byte :=
  if o < 4 then byteAt headerTag o
  else if h : o < 20 then s.readV ⟨o - 4, by omega⟩
  else if o < 22 then wordByte s.I (o - 20)
  else if o < 23 then s.dt
  else if o < 24 then s.st
  else if o < 26 then wordByte s.pc (o - 24)
  else if o < 27 then s.sp
  else if o < 59 then wordByte (s.readStack ((o - 27) / 2)) ((o - 27) % 2)
  else if o < 4155 then s.mem.read (o - 59)
  else if o < 4411 then packedByte s.pix ((o - 4155) / 8) ((o - 4155) % 8)
  else byteAt footerTag (o - 4411)

/-- `capture`: the 4415 bytes of the image; it changes no state and is allowed in any `status` (R245,
R313). -/
def capture (s : State) : List Byte := (List.range Config.savestateSize).map (captureByte s)

/-- The two tag checks, the header first (R247, R248). -/
def checkImage (b : List Byte) : Except FaultCause Unit :=
  if b.take 4 ≠ headerTag then .error (.dataError .header)
  else if (b.drop 4411).take 4 ≠ footerTag then .error (.dataError .footer)
  else .ok ()

/-- The commit of a restore: everything the layout carries, and nothing else; no value is validated;
the display is overwritten, not XORed (R247, R249, R250, R251). -/
def commitImage (b : List Byte) (s : State) : State :=
  { s with
    V := Vector.ofFn fun i => byteAt b (4 + i.val)
    I := wordAt b 20
    dt := byteAt b 22
    st := byteAt b 23
    pc := wordAt b 24
    sp := byteAt b 26
    stack := Vector.ofFn fun k => wordAt b (27 + 2 * k.val)
    mem := Memory.ofBytes 0 ((b.drop 59).take 4096)
    pix := Grid.ofFn fun px py => (byteAt b (4155 + 8 * py + px / 8)).getLsbD (7 - px % 8) }

/-- `restore`, staged: the length and the tags are checked first, and a failure changes nothing; bytes
past the 4415th are not read (R247, R248, R252). -/
def restore (source : Option (List Byte)) (s : State) : Except FaultCause State :=
  match source with
  | none => .error .ioError
  | some bytes =>
    if bytes.length < Config.savestateSize then .error .ioError
    else
      let b := bytes.take Config.savestateSize
      match checkImage b with
      | .error f => .error f
      | .ok () => .ok (commitImage b s)

/-- After the commit the sink is told every pixel's new value: whether it accepts all 2048, and the
environment afterwards (R253). -/
def notifyAllPixels (s : State) : Bool × State :=
  match s.env.sinkFailsAfter with
  | none => (true, s)
  | some k =>
    if k < Config.displayW * Config.displayH then
      (false, s.setEnv { s.env with sinkFailsAfter := some 0 })
    else
      (true, s.setEnv
        { s.env with sinkFailsAfter := some (k - Config.displayW * Config.displayH) })

end Sys2Proof.Machine
end

