-- ==== Sys2Proof/Machine/Events.lean ====
section
/-! DEFINITION. The transitions of the block, one per row of 70_reset_and_hazards.md R313, and the boot
sequence (R312). -/

namespace Sys2Proof.Machine

/-- A host operation's result: a failed one has changed nothing, and the driving loop ends the run
with its fault (R275; that the host latches it is log 11). -/
def hostResult (s : State) : Except FaultCause State → Result
  | .ok s1 => .next s1
  | .error f => takeFault f s

/-- `restore` with the sink told of the new pixels after the commit: a sink failure leaves the block
fully restored (R253). -/
def restoreEvent (source : Option (List Byte)) (s : State) : Result :=
  match restore source s with
  | .error f => takeFault f s
  | .ok s1 =>
    match notifyAllPixels s1 with
    | (true, s2) => .next s2
    | (false, s2) => takeFault .subsystemError s2

/-- A transition of a running machine (R313). Each is atomic (R69). DESIGN CHOICE: `start()` is given per
clock (R291), so each clock starts in a transition of its own, at a time of its own; the spec does not say
whether the two starts read the same time (log 20). -/
def applyEvent (e : Event) (s : State) : Result :=
  match e with
  | .cpuTick => cpuStep s
  | .timerTick => .next (timerTick s)
  | .startCpuClock now => .next { s with cpuClock := startClock now s.cpuClock }
  | .startTimerClock now => .next { s with timerClock := startClock now s.timerClock }
  | .pollCpuClock now =>
    let s1 := { s with cpuClock := pollClock now s.cpuClock }
    if clockDue now s.cpuClock then cpuStep s1 else .next s1
  | .pollTimerClock now =>
    let s1 := { s with timerClock := pollClock now s.timerClock }
    .next (if clockDue now s.timerClock then timerTick s1 else s1)
  | .loadFont => .next (loadFont Config.font s)
  | .loadProgram source => hostResult s (loadProgram source s)
  | .memoryReset => .next (memoryReset s)
  | .writePaused value => .next { s with paused := value }
  | .setSingleStep => .next (s.setSingleStepFlag true)
  | .saveState written => if written then .next s else takeFault .ioError s
  | .restoreState source => restoreEvent source s
  | .quit => .next (s.setStatus .quit)

/-- One transition. Once `status` is not `Running` it never changes again and no step, timer tick or host
operation has any effect (R32, R281; TT5 of 95_test_vectors.md: "unchanged"), `capture`, which is allowed in
any status, included (R313). DEDUCED: the spec also says of such a machine that "there is no step" (R120, R124);
the model's transition is the one that changes nothing (log 7). -/
def transition (e : Event) (s : State) : Result :=
  match s.status with
  | .running => applyEvent e s
  | .faulted _ => .next s
  | .quit => .next s

/-- The boot sequence: the font, then the program if there is one, then the startup savestate if there
is one, then the clocks (R312; the order is the spec's decision D45). DESIGN CHOICE: the CPU clock starts
before the timer clock, and the two times are free, equal or not (log 20). -/
def bootSchedule (program savestate : Option (List Byte)) (cpuNow timerNow : Nat) : List Event :=
  [.loadFont]
    ++ (match program with | some bytes => [.loadProgram (some bytes)] | none => [])
    ++ (match savestate with | some image => [.restoreState (some image)] | none => [])
    ++ [.startCpuClock cpuNow, .startTimerClock timerNow]

/-- Store an instruction word at an address, high byte first (R66). -/
def storeWord (m : Memory) (a : Nat) (w : Word) : Memory :=
  (m.write a w.highByte).write (a + 1) w.lowByte

end Sys2Proof.Machine
end

