-- ==== Sys2Proof/Machine/Step.lean ====
section
/-! DEFINITION. One step of the machine as a whole: the next transition of the schedule, or a CPU tick
where the schedule lists none (70_reset_and_hazards.md R313, R319). -/

namespace Sys2Proof.Machine

/-- One transition: the schedule's next event, or a CPU tick (log 6). -/
def step (s : State) : Host.Outcome State Fault Refusal :=
  match s.schedule with
  | [] => transition .cpuTick s
  | e :: rest => transition e { s with schedule := rest }

/-- `s` with the instruction whose bits are `w` stored where the step fetches next, and with all that
its execution as the very next step takes: a `pc` that can be fetched at, a running machine, an open
pause gate and no transition scheduled before it (log 17). -/
def State.withFetchWord (s : State) (nbits w : Nat) : State :=
  let pc : Word := if addressOk (s.pc.toNat + 1) then s.pc else BitVec.ofNat 16 Config.programStart
  let word : Word := BitVec.ofNat 16 (w % 2 ^ nbits)
  { s with
    pc := pc
    mem := storeWord s.mem pc.toNat word
    status := .running
    paused := s.paused && s.singleStep
    schedule := [] }

end Sys2Proof.Machine
end

