-- ==== Sys2Proof/Safety.lean ====
section
/-! DEFINITION. The terms claims are stated in: a safe run, what an instruction writes beside its
frame, and the pixels a sprite covers. -/

namespace Sys2Proof

open Machine

/-! ## Safe runs -/

/-- A fault has ended the run (R281). A quit run is not faulted (R277). -/
def Faulted (s : State) : Prop := ∃ f, s.status = .faulted f

/-- No state that the machine reaches from `s` is faulted: a faulted state is never a successful final
state (R281, R314). -/
def SafeFrom (s : State) : Prop :=
  ∀ k t, Sys2Proof.core.run k s = .next t → ¬ Faulted t

/-! ## Sprites -/

/-- The pixels that one sprite byte covers, left to right: one for each set bit (R203). -/
def rowPixels (x0 y : Nat) (byte : Byte) : List (Nat × Nat) :=
  (List.range 8).filterMap fun i => if byte.getLsbD (7 - i) then some (x0 + i, y) else none

/-- The pixels that `n` sprite bytes from `base` on cover, in drawing order (R207). -/
def spritePixels (s : State) (x0 y0 base n : Nat) : List (Nat × Nat) :=
  (List.range n).flatMap fun r => rowPixels x0 (y0 + r) (s.mem.read (base + r))

/-- How many of `n` sprite rows lie in memory, from the first on (R207). -/
def readableRows (base n : Nat) : Nat := min n (0x1000 - base)

/-- Every pixel of a list is on the 64 by 32 grid (R204). -/
def AllOnGrid (ps : List (Nat × Nat)) : Prop := ∀ p ∈ ps, p.1 < 64 ∧ p.2 < 32

/-- The pixel sink accepts `k` more pixels (R209). -/
def SinkAccepts (s : State) (k : Nat) : Prop := ∀ b, s.env.sinkFailsAfter = some b → k ≤ b

/-! ## Steps and faults -/

/-- The next step of the machine executes the word `w`: it is running, nothing else is scheduled, the
pause gate is open, and `w` is the big-endian word at `pc`, inside memory (R66, R67, R120, R121). -/
def Fetches (s : State) (w : Word) : Prop :=
  s.status = .running ∧ s.schedule = [] ∧ (s.paused = false ∨ s.singleStep = true) ∧
    s.pc.toNat + 1 < 4096 ∧
    w = Word.ofBytes (s.mem.read s.pc.toNat) (s.mem.read (s.pc.toNat + 1))

/-- The state in which a fetched word executes: `single_step` cleared, `opcode` written (R120, R122). -/
def afterFetch (s : State) (w : Word) : State := { s with singleStep := false, opcode := w }

/-- The faults that the instruction rules list, each with the condition under which it is raised (R271
to R274, R283). Of a register run: its first address beyond memory. Of a draw: the sink fails within the
pixels of the rows that lie in memory, the first row beyond memory is read, or a set bit of a row in memory
lies off the grid. -/
def ListedFault (s : State) (f : FaultCause) : Instr → Prop
  | .ret =>
    (s.sp = 0 ∧ f = .stackUnderflow) ∨ (16 < s.sp.toNat ∧ f = .stackOverflow)
  | .call _ => 16 ≤ s.sp.toNat ∧ f = .stackOverflow
  | .ldF x => 0x0F < (s.readV x).toNat ∧ f = .outOfBounds (.digit (s.readV x).toNat)
  | .ldB _ => 0x0FFE ≤ s.I.toNat ∧ f = .outOfBounds (.address s.I.toNat)
  | .ldMemVx x | .ldVxMem x =>
    ∃ i, i ≤ x.val ∧ 0xFFF < indexAddr s i ∧ (∀ j, j < i → indexAddr s j ≤ 0xFFF) ∧
      f = .outOfBounds (.address (indexAddr s i))
  | .drw x y n =>
    let read := spritePixels s (s.readV x).toNat (s.readV y).toNat s.I.toNat
      (readableRows s.I.toNat n.toNat)
    (f = .subsystemError ∧ ∃ b, s.env.sinkFailsAfter = some b ∧ b < read.length) ∨
    (∃ r, r < n.toNat ∧ 0xFFF < indexAddr s r ∧ (∀ q, q < r → indexAddr s q ≤ 0xFFF) ∧
      f = .outOfBounds (.address (indexAddr s r))) ∨
    (∃ p ∈ read, (63 < p.1 ∨ 31 < p.2) ∧ f = .outOfBounds (.pixel p.1 p.2))
  | .cls | .sys _ | .jp _ | .seImm _ _ | .sneImm _ _ | .seReg _ _ | .ldImm _ _ | .addImm _ _
  | .ldReg _ _ | .orReg _ _ | .andReg _ _ | .xorReg _ _ | .addReg _ _ | .subReg _ _ | .shr _ _
  | .subn _ _ | .shl _ _ | .sneReg _ _ | .ldI _ | .jpV0 _ | .rnd _ _ | .skp _ | .sknp _
  | .ldVxDt _ | .ldVxK _ | .ldDtVx _ | .ldStVx _ | .addI _ | .illegal _ => False

/-! ## What an instruction writes -/

/-- The instruction completes with the next state `t`, in which nothing but `pc` may differ. -/
def OnlyMovesPc (i : Instr) (s : State) (pc : Word) : Prop :=
  exec i s = .next { s with pc := pc }

/-- The instruction completes, writes `v` to register `x`, advances `pc` by 2, and leaves every other
register and all other state as it was. -/
def WritesRegister (i : Instr) (s : State) (x : Reg) (v : Byte) : Prop :=
  ∃ t, exec i s = .next t ∧
    (∀ r, t.readV r = if r = x then v else s.readV r) ∧
    t.pc = s.pc + 2 ∧
    { t with V := s.V, pc := s.pc } = s

/-- The instruction completes, writes `v` to register `x` and then the flag to `VF`, so that `VF` holds
the flag also when `x` is `VF`; it advances `pc` by 2 and leaves all else as it was. -/
def WritesRegisterAndFlag (i : Instr) (s : State) (x : Reg) (v : Byte) (flag : Prop) : Prop :=
  ∃ t, exec i s = .next t ∧
    ((flag ∧ t.readV regF = 0x01) ∨ (¬ flag ∧ t.readV regF = 0x00)) ∧
    (∀ r, r ≠ regF → t.readV r = if r = x then v else s.readV r) ∧
    t.pc = s.pc + 2 ∧
    { t with V := s.V, pc := s.pc } = s

/-- The instructions that write `VF` as a flag (R22). -/
def Instr.writesFlag : Instr → Bool
  | .addReg _ _ | .subReg _ _ | .shr _ _ | .subn _ _ | .shl _ _ | .drw _ _ _ => true
  | .cls | .ret | .sys _ | .jp _ | .call _ | .seImm _ _ | .sneImm _ _ | .seReg _ _ | .ldImm _ _
  | .addImm _ _ | .ldReg _ _ | .orReg _ _ | .andReg _ _ | .xorReg _ _ | .sneReg _ _ | .ldI _
  | .jpV0 _ | .rnd _ _ | .skp _ | .sknp _ | .ldVxDt _ | .ldVxK _ | .ldDtVx _ | .ldStVx _
  | .addI _ | .ldF _ | .ldB _ | .ldMemVx _ | .ldVxMem _ | .illegal _ => false

/-- The registers an instruction names as its destination (41_alu.md, 42_index_memory.md,
44_keypad_timers.md): `Vx`, or the run `V0` to `Vx` of `Fx65`. -/
def Instr.names (r : Reg) : Instr → Bool
  | .ldImm x _ | .addImm x _ | .ldReg x _ | .orReg x _ | .andReg x _ | .xorReg x _ | .addReg x _
  | .subReg x _ | .shr x _ | .subn x _ | .shl x _ | .rnd x _ | .ldVxDt x | .ldVxK x => r == x
  | .ldVxMem x => decide (r ≤ x)
  | .cls | .ret | .sys _ | .jp _ | .call _ | .seImm _ _ | .sneImm _ _ | .seReg _ _ | .sneReg _ _
  | .ldI _ | .jpV0 _ | .drw _ _ _ | .skp _ | .sknp _ | .ldDtVx _ | .ldStVx _ | .addI _ | .ldF _
  | .ldB _ | .ldMemVx _ | .illegal _ => false

/-! ## What drawing a list of pixels leaves -/

/-- The environment after the sink has accepted `k` pixels. -/
def envAfterPixels (s : State) (k : Nat) : Env :=
  { s.env with sinkFailsAfter := s.env.sinkFailsAfter.map fun b => b - k }

/-- Some pixel of a list is lit. -/
def SomeLit (g : Grid) (ps : List (Nat × Nat)) : Prop := ∃ p ∈ ps, g.get p.1 p.2 = true

/-- `t` is `s` after `VF` was cleared and the pixels of a list without repeats were drawn: each is
flipped and no other; `VF` is 1 where one of them was lit and 0 otherwise; the sink has accepted them;
nothing else but `pc` may differ (R202, R203, R205, R207). -/
def Drawn (s t : State) (ps : List (Nat × Nat)) : Prop :=
  (∀ a b, t.pix.get a b = (s.pix.get a b ^^ decide ((a, b) ∈ ps))) ∧
  ((SomeLit s.pix ps ∧ t.readV regF = 0x01) ∨ (¬ SomeLit s.pix ps ∧ t.readV regF = 0x00)) ∧
  (∀ r, r ≠ regF → t.readV r = s.readV r) ∧
  t.env = envAfterPixels s ps.length ∧
  { t with V := s.V, pix := s.pix, env := s.env, pc := s.pc } = s

end Sys2Proof
end

