-- ==== Sys2Proof/Certificates/Slice0/Obligations.lean ====
section
/-! DEFINITION. The statements for the provers. Each docstring names the rule of spec/ that the statement
formalises; where a clause rests on a decision of the spec (a `D<n>` of 92_eei_decisions.md) or on a
choice of the model (a log entry), it says so. -/

open Sys2Proof Sys2Proof.Machine

/-! ## Encoding (30_encoding.md) -/

/-- Decoding the encoding of a well-formed instruction gives the instruction back, whatever its
operands (R90 to R101). -/
def Obligations.DecodeOfEncode : Prop :=
  ∀ i : Instr, i.wellFormed = true → decode (encode i) = i

/-- Every one of the 65536 words decodes to a well-formed instruction whose encoding is that word: no
bit of a word is dropped, and no encoding is refused (R94, R102). -/
def Obligations.EncodeOfDecode : Prop :=
  ∀ w : Word, (decode w).wellFormed = true ∧ encode (decode w) = w

/-- The decoder agrees with the match and mask pairs of the opcode map (R94, R95): `CLS` and `RET` come
before `SYS`; a word that matches a row of the table is that row's instruction; the words that R100 lists,
which match no row, are illegal. The values of `d` for SUB, SHR, SUBN are the spec's general knowledge (R96, log 19), and
`5xyN`, `9xyN` its decision D42. -/
def Obligations.DecodeFollowsOpcodeMap : Prop :=
  ∀ w : Word,
    (w = 0x00E0 → decode w = .cls) ∧
    (w = 0x00EE → decode w = .ret) ∧
    (w ≠ 0x00E0 → w ≠ 0x00EE → w &&& 0xF000 = 0x0000 → decode w = .sys (fieldNNN w)) ∧
    (w &&& 0xF000 = 0x1000 → decode w = .jp (fieldNNN w)) ∧
    (w &&& 0xF000 = 0x2000 → decode w = .call (fieldNNN w)) ∧
    (w &&& 0xF000 = 0x3000 → decode w = .seImm (fieldX w) (fieldKK w)) ∧
    (w &&& 0xF000 = 0x4000 → decode w = .sneImm (fieldX w) (fieldKK w)) ∧
    (w &&& 0xF00F = 0x5000 → decode w = .seReg (fieldX w) (fieldY w)) ∧
    (w &&& 0xF000 = 0x6000 → decode w = .ldImm (fieldX w) (fieldKK w)) ∧
    (w &&& 0xF000 = 0x7000 → decode w = .addImm (fieldX w) (fieldKK w)) ∧
    (w &&& 0xF00F = 0x8000 → decode w = .ldReg (fieldX w) (fieldY w)) ∧
    (w &&& 0xF00F = 0x8001 → decode w = .orReg (fieldX w) (fieldY w)) ∧
    (w &&& 0xF00F = 0x8002 → decode w = .andReg (fieldX w) (fieldY w)) ∧
    (w &&& 0xF00F = 0x8003 → decode w = .xorReg (fieldX w) (fieldY w)) ∧
    (w &&& 0xF00F = 0x8004 → decode w = .addReg (fieldX w) (fieldY w)) ∧
    (w &&& 0xF00F = 0x8005 → decode w = .subReg (fieldX w) (fieldY w)) ∧
    (w &&& 0xF00F = 0x8006 → decode w = .shr (fieldX w) (fieldY w)) ∧
    (w &&& 0xF00F = 0x8007 → decode w = .subn (fieldX w) (fieldY w)) ∧
    (w &&& 0xF00F = 0x800E → decode w = .shl (fieldX w) (fieldY w)) ∧
    (w &&& 0xF00F = 0x9000 → decode w = .sneReg (fieldX w) (fieldY w)) ∧
    (w &&& 0xF000 = 0xA000 → decode w = .ldI (fieldNNN w)) ∧
    (w &&& 0xF000 = 0xB000 → decode w = .jpV0 (fieldNNN w)) ∧
    (w &&& 0xF000 = 0xC000 → decode w = .rnd (fieldX w) (fieldKK w)) ∧
    (w &&& 0xF000 = 0xD000 → decode w = .drw (fieldX w) (fieldY w) (fieldN w)) ∧
    (w &&& 0xF0FF = 0xE09E → decode w = .skp (fieldX w)) ∧
    (w &&& 0xF0FF = 0xE0A1 → decode w = .sknp (fieldX w)) ∧
    (w &&& 0xF0FF = 0xF007 → decode w = .ldVxDt (fieldX w)) ∧
    (w &&& 0xF0FF = 0xF00A → decode w = .ldVxK (fieldX w)) ∧
    (w &&& 0xF0FF = 0xF015 → decode w = .ldDtVx (fieldX w)) ∧
    (w &&& 0xF0FF = 0xF018 → decode w = .ldStVx (fieldX w)) ∧
    (w &&& 0xF0FF = 0xF01E → decode w = .addI (fieldX w)) ∧
    (w &&& 0xF0FF = 0xF029 → decode w = .ldF (fieldX w)) ∧
    (w &&& 0xF0FF = 0xF033 → decode w = .ldB (fieldX w)) ∧
    (w &&& 0xF0FF = 0xF055 → decode w = .ldMemVx (fieldX w)) ∧
    (w &&& 0xF0FF = 0xF065 → decode w = .ldVxMem (fieldX w)) ∧
    ((fieldA w = 0x5#4 ∧ fieldN w ≠ 0x0#4) ∨
      (fieldA w = 0x8#4 ∧ fieldN w ∈ [0x8#4, 0x9#4, 0xA#4, 0xB#4, 0xC#4, 0xD#4, 0xF#4]) ∨
      (fieldA w = 0x9#4 ∧ fieldN w ≠ 0x0#4) ∨
      (fieldA w = 0xE#4 ∧ fieldKK w ∉ [0x9E#8, 0xA1#8]) ∨
      (fieldA w = 0xF#4 ∧ fieldKK w ∉
        [0x07#8, 0x0A#8, 0x15#8, 0x18#8, 0x1E#8, 0x29#8, 0x33#8, 0x55#8, 0x65#8]) →
      decode w = .illegal w)

/-- Words that the spec writes out beside their instructions (R103, R125 to R134, R150 to R161, R180 to
R185, R206, R207, R221 to R226). A sanity statement. -/
def Obligations.SampleWordsDecode : Prop :=
  decode 0x6012 = .ldImm 0 0x12 ∧ decode 0x7005 = .addImm 0 0x05 ∧ decode 0x00E0 = .cls ∧
    decode 0x00EE = .ret ∧ decode 0x0123 = .sys 0x123 ∧ decode 0x2210 = .call 0x210 ∧
    decode 0x820E = .shl 2 0 ∧ decode 0x8128 = .illegal 0x8128 ∧ decode 0xC30F = .rnd 3 0x0F ∧
    decode 0xD012 = .drw 0 1 2 ∧ decode 0xE09E = .skp 0 ∧ decode 0xF30A = .ldVxK 3 ∧
    decode 0xF21E = .addI 2 ∧ decode 0xF255 = .ldMemVx 2 ∧ decode 0xF265 = .ldVxMem 2

/-! ## The step (40_control_flow.md R120 to R124) -/

/-- A step executes the instruction that the word at `pc` decodes to, in the state in which
`single_step` is cleared and `opcode` holds the word (R66, R120, R122). -/
def Obligations.StepRunsDecodedInstruction : Prop :=
  ∀ (s : State) (w : Word), Fetches s w → step s = exec (decode w) (afterFetch s w)

/-- A paused step without a single-step request is a no-op: the whole state stays, the environment's
answers included; and it is not the timers that are paused (R121). -/
def Obligations.PausedStepChangesNothing : Prop :=
  ∀ s : State, s.status = .running → s.paused = true → s.singleStep = false →
    transition .cpuTick s = .next s ∧
    ∃ t, transition .timerTick s = .next t ∧ t.dt = countDown s.dt ∧ t.st = countDown s.st

/-- The host writes the pause flag and sets the single-step request, and each write changes nothing else
(R30, R31). A step that passes the pause gate consumes the request, whatever its instruction is and whether
or not it faults; so a paused machine whose request is set takes one step and is gated again at once (R122;
the spec's decision D25). -/
def Obligations.SingleStepIsConsumed : Prop :=
  ∀ s : State, s.status = .running →
    (∀ value, transition (.writePaused value) s = .next { s with paused := value }) ∧
    transition .setSingleStep s = .next { s with singleStep := true } ∧
    ∀ t, transition .cpuTick { s with singleStep := true } = .next t →
      t.singleStep = false ∧ t.paused = s.paused ∧
      (s.paused = true → t.status = .running → transition .cpuTick t = .next t)

/-- A fetch at `pc >= 0xFFF` faults with `OutOfBounds(pc)`: `opcode` and `pc` stay and nothing is read
(R67, R120, R280; the check is the spec's decision D2). -/
def Obligations.FetchBeyondMemoryFaults : Prop :=
  ∀ s : State, s.status = .running → s.schedule = [] → (s.paused = false ∨ s.singleStep = true) →
    0xFFF ≤ s.pc.toNat →
    step s = .next
      { s with singleStep := false, status := .faulted (.outOfBounds (.address s.pc.toNat)) }

/-- The host's quit request sets `status` to `Quit` and changes nothing else (R277). Once the run has ended, by a
fault or by a quit, no step, no timer tick and no host operation has any effect, a capture or its failing write
included: however long it is run and whatever is scheduled, the machine stays as it is (R32, R281, R313; the
latch is the spec's decision D32, and that the model's transition is then one that changes nothing but the
schedule it reads is log 7). -/
def Obligations.EndedRunNeverChanges : Prop :=
  ∀ s : State,
    (s.status = .running → transition .quit s = .next { s with status := .quit }) ∧
    (s.status ≠ .running →
      (∀ e, transition e s = .next s) ∧
      ∀ k, Sys2Proof.core.run k s = .next { s with schedule := s.schedule.drop k })

/-- An instruction faults only as the instruction rules list: the fault is one that its rule raises, under
the condition its rule gives (R271 to R274, R278, R283; `ListedFault` spells the conditions out, among them
that a draw reports a failing sink only where the sink fails within the pixels of the sprite rows that lie
in memory, and a pixel off the grid only where it is one of them). A fault does not advance `pc` and leaves
`opcode`, `I`, the timers, `sp` and the stack as they were (R124, R280). The conditions rest on the spec's
decisions D1, D6, D13, D16 to D18 and D35, the `pc` on D33. -/
def Obligations.OnlyListedFaultsAndPcStays : Prop :=
  ∀ (i : Instr) (s t : State) (f : FaultCause), s.status = .running → exec i s = .next t →
    t.status = .faulted f →
    ListedFault s f i ∧ t.pc = s.pc ∧ t.opcode = s.opcode ∧ t.I = s.I ∧ t.dt = s.dt ∧ t.st = s.st ∧
      t.sp = s.sp ∧ t.stack = s.stack

/-- A jump to self is where a program ends: from there every step gives the same state again, but that
`opcode` holds the jump (R314). -/
def Obligations.JumpToSelfRepeats : Prop :=
  ∀ (s : State) (nnn : Addr) (n : Nat), Fetches s (encode (.jp nnn)) → s.pc = zext16 nnn →
    Sys2Proof.core.run (n + 1) s = .next (afterFetch s (encode (.jp nnn)))

/-- The boot of a created machine with a program takes four transitions and leaves the font at
`0x000`, the program at `0x200`, zeros elsewhere and each clock started at its own time; nothing else
differs from the created state (R77, R78, R291, R310, R312; the order is the spec's decision D45, that the
CPU clock starts first and that the two times are free is the model's choice, log 20, the font bytes D14 and
log 9, the clock period log 12). -/
def Obligations.BootLoadsFontAndProgram : Prop :=
  ∀ (bytes : List Byte) (pause : Bool) (hz cpuNow timerNow : Nat), bytes.length ≤ 3584 →
    ∃ t, Sys2Proof.core.run 4
        { State.create pause hz with
          schedule := bootSchedule (some bytes) none cpuNow timerNow } = .next t ∧
      (∀ k, k < 80 → t.mem.read k = Config.font.getD k 0) ∧
      (∀ k, k < 3584 → t.mem.read (0x200 + k) = bytes.getD k 0) ∧
      (∀ a, 80 ≤ a → a < 0x200 → t.mem.read a = 0) ∧
      t.programLength = bytes.length ∧
      t.cpuClock =
        { frequency := hz, tickCount := 0, nextTick := some (cpuNow + clockPeriod hz) } ∧
      t.timerClock =
        { frequency := 60, tickCount := 0, nextTick := some (timerNow + clockPeriod 60) } ∧
      { t with mem := [], programLength := 0, cpuClock := Clock.create hz,
               timerClock := Clock.create 60 } = State.create pause hz

/-! ## Control flow (40_control_flow.md) -/

/-- R125: `SYS`, all of group 0 but `00E0` and `00EE`, only advances `pc`. -/
def Obligations.SysIsNoOp : Prop :=
  (∀ w : Word, w &&& 0xF000 = 0x0000 → w ≠ 0x00E0 → w ≠ 0x00EE → decode w = .sys (fieldNNN w)) ∧
  ∀ (nnn : Addr) (s : State), OnlyMovesPc (.sys nnn) s (s.pc + 2)

/-- R134: the step of an illegal word succeeds; `opcode` holds the word, `pc` has advanced by 2, and no
other state has changed but the consumed single-step request. The set of illegal words is R100's, which
rests on the spec's decision D42. -/
def Obligations.IllegalWordIsNoOp : Prop :=
  (∀ (w : Word) (s : State), OnlyMovesPc (.illegal w) s (s.pc + 2)) ∧
  ∀ (w : Word) (s : State), illegalWord w = true → Fetches s w →
    step s = .next { s with pc := s.pc + 2, opcode := w, singleStep := false }

/-- `JP nnn` loads `pc` with the zero-extended target and changes nothing else; the target is not
checked (R127; the spec's decision D41). -/
def Obligations.JpLoadsPc : Prop :=
  ∀ (nnn : Addr) (s : State), OnlyMovesPc (.jp nnn) s (nnn.setWidth 16)

/-- `JP V0, nnn` loads `pc` with the absolute sum of `V0` and the address, kept in full (R129; the
absolute form is the spec's decision D7). -/
def Obligations.JpV0LoadsSum : Prop :=
  ∀ (nnn : Addr) (s : State),
    ∃ pc : Word, OnlyMovesPc (.jpV0 nnn) s pc ∧ pc.toNat = (s.readV 0).toNat + nnn.toNat

/-- `CALL nnn` with fewer than 16 entries in use pushes the address after it and jumps; with 16 or more
it faults with `StackOverflow` and changes nothing else (R128, R272; the spec's decisions D4, D5,
D6). -/
def Obligations.CallPushesReturnAddress : Prop :=
  ∀ (nnn : Addr) (s : State),
    (s.sp.toNat < 16 →
      ∃ t, exec (.call nnn) s = .next t ∧ t.sp.toNat = s.sp.toNat + 1 ∧ t.pc = nnn.setWidth 16 ∧
        (∀ k, k < 16 → t.readStack k = if k = s.sp.toNat then s.pc + 2 else s.readStack k) ∧
        { t with sp := s.sp, pc := s.pc, stack := s.stack } = s) ∧
    (16 ≤ s.sp.toNat → exec (.call nnn) s = .next { s with status := .faulted .stackOverflow })

/-- `RET` pops the newest entry into `pc` and adds nothing; with no entry it faults with
`StackUnderflow`, and with `sp > 16` with `StackOverflow`, and changes nothing else (R126, R271, R272;
the spec's decisions D4, D6). -/
def Obligations.RetPopsNewestEntry : Prop :=
  ∀ s : State,
    (0 < s.sp.toNat → s.sp.toNat ≤ 16 →
      ∃ t, exec .ret s = .next t ∧ t.sp.toNat + 1 = s.sp.toNat ∧
        t.pc = s.readStack (s.sp.toNat - 1) ∧ { t with sp := s.sp, pc := s.pc } = s) ∧
    (s.sp = 0 → exec .ret s = .next { s with status := .faulted .stackUnderflow }) ∧
    (16 < s.sp.toNat → exec .ret s = .next { s with status := .faulted .stackOverflow })

/-- A call and the return from it resume at the instruction after the call with the same number of
entries in use, and the popped slot keeps its value (R126, R128, R28; D4, D5). -/
def Obligations.ReturnUndoesCall : Prop :=
  ∀ (nnn : Addr) (s t : State), s.sp.toNat < 16 → exec (.call nnn) s = .next t →
    ∃ u, exec .ret t = .next u ∧ u.pc = s.pc + 2 ∧ u.sp = s.sp ∧
      u.readStack s.sp.toNat = s.pc + 2 ∧
      (∀ k, k < 16 → k ≠ s.sp.toNat → u.readStack k = s.readStack k) ∧
      { u with pc := s.pc, stack := s.stack } = s

/-- R130 to R133: the four skips are the words of their match and mask; each adds 4 to `pc` where its
comparison holds and 2 where it does not, and writes nothing else. -/
def Obligations.SkipsCompareAndAdvance : Prop :=
  (∀ w : Word,
    (w &&& 0xF000 = 0x3000 → decode w = .seImm (fieldX w) (fieldKK w)) ∧
    (w &&& 0xF000 = 0x4000 → decode w = .sneImm (fieldX w) (fieldKK w)) ∧
    (w &&& 0xF00F = 0x5000 → decode w = .seReg (fieldX w) (fieldY w)) ∧
    (w &&& 0xF00F = 0x9000 → decode w = .sneReg (fieldX w) (fieldY w)) ∧
    (w &&& 0xF000 = 0x5000 → w &&& 0x000F ≠ 0 → decode w = .illegal w) ∧
    (w &&& 0xF000 = 0x9000 → w &&& 0x000F ≠ 0 → decode w = .illegal w)) ∧
  ∀ (x y : Reg) (kk : Byte) (s : State),
    OnlyMovesPc (.seImm x kk) s (if s.readV x = kk then s.pc + 4 else s.pc + 2) ∧
    OnlyMovesPc (.sneImm x kk) s (if s.readV x ≠ kk then s.pc + 4 else s.pc + 2) ∧
    OnlyMovesPc (.seReg x y) s (if s.readV x = s.readV y then s.pc + 4 else s.pc + 2) ∧
    OnlyMovesPc (.sneReg x y) s (if s.readV x ≠ s.readV y then s.pc + 4 else s.pc + 2)

/-! ## Arithmetic (41_alu.md) -/

/-- R150, R151, R152, R180: the loads and the immediate addition are the words of their match and mask; each
completes and writes its destination, `ADD Vx, kk` wraps at 8 bits, and no other register, `VF` included,
and nothing else but `pc` changes. -/
def Obligations.LoadsAndAddImmediate : Prop :=
  (∀ w : Word,
    (w &&& 0xF000 = 0x6000 → decode w = .ldImm (fieldX w) (fieldKK w)) ∧
    (w &&& 0xF000 = 0x7000 → decode w = .addImm (fieldX w) (fieldKK w)) ∧
    (w &&& 0xF00F = 0x8000 → decode w = .ldReg (fieldX w) (fieldY w)) ∧
    (w &&& 0xF000 = 0xA000 → decode w = .ldI (fieldNNN w))) ∧
  ∀ (x y : Reg) (kk : Byte) (nnn : Addr) (s : State),
    WritesRegister (.ldImm x kk) s x kk ∧
    (∃ v : Byte, v.toNat = ((s.readV x).toNat + kk.toNat) % 256 ∧
      WritesRegister (.addImm x kk) s x v) ∧
    WritesRegister (.ldReg x y) s x (s.readV y) ∧
    exec (.ldI nnn) s = .next { s with I := nnn.setWidth 16, pc := s.pc + 2 }

/-- `OR`, `AND` and `XOR` write the destination and no flag (R153, R154, R155; that `VF` is not written
is the spec's decision D11). -/
def Obligations.LogicWritesNoFlag : Prop :=
  ∀ (x y : Reg) (s : State),
    WritesRegister (.orReg x y) s x (s.readV x ||| s.readV y) ∧
    WritesRegister (.andReg x y) s x (s.readV x &&& s.readV y) ∧
    WritesRegister (.xorReg x y) s x (s.readV x ^^^ s.readV y)

/-- `ADD Vx, Vy` writes the sum modulo 256 and then the carry, also where an operand is `VF` (R156, R162,
R163; the order is the spec's decision D9). -/
def Obligations.AddWritesSumAndCarry : Prop :=
  ∀ (x y : Reg) (s : State),
    ∃ v : Byte, v.toNat = ((s.readV x).toNat + (s.readV y).toNat) % 256 ∧
      WritesRegisterAndFlag (.addReg x y) s x v ((s.readV x).toNat + (s.readV y).toNat > 255)

/-- `SUB` and `SUBN` write the difference modulo 256 and then the complement of the borrow, 1 at equality
(R157, R159, R162, R163; the spec's decisions D9, D10). -/
def Obligations.SubtractWritesDifferenceAndNoBorrow : Prop :=
  ∀ (x y : Reg) (s : State),
    (∃ v : Byte, v.toNat = ((s.readV x).toNat + 256 - (s.readV y).toNat) % 256 ∧
      WritesRegisterAndFlag (.subReg x y) s x v ((s.readV y).toNat ≤ (s.readV x).toNat)) ∧
    (∃ v : Byte, v.toNat = ((s.readV y).toNat + 256 - (s.readV x).toNat) % 256 ∧
      WritesRegisterAndFlag (.subn x y) s x v ((s.readV x).toNat ≤ (s.readV y).toNat))

/-- `SHR` and `SHL` shift `Vx` in place by one, whatever `y` is, and write the bit shifted out (R158,
R160, R162, R163; the spec's decisions D8, D9). -/
def Obligations.ShiftWritesBitShiftedOut : Prop :=
  ∀ (x y : Reg) (s : State),
    (∃ v : Byte, v.toNat = (s.readV x).toNat / 2 ∧
      WritesRegisterAndFlag (.shr x y) s x v ((s.readV x).toNat % 2 = 1)) ∧
    (∃ v : Byte, v.toNat = 2 * (s.readV x).toNat % 256 ∧
      WritesRegisterAndFlag (.shl x y) s x v (128 ≤ (s.readV x).toNat))

/-- `RND` writes the environment's byte masked by `kk`; a listed answer is taken and any other byte is
free; nothing but the destination, `pc` and the environment's answers changes (R161; the spec's decision
D39, log 1). -/
def Obligations.RandomByteIsMasked : Prop :=
  ∀ (x : Reg) (kk : Byte) (s : State),
    ∃ (r : Byte) (t : State), exec (.rnd x kk) s = .next t ∧
      (∀ q, t.readV q = if q = x then r &&& kk else s.readV q) ∧
      t.pc = s.pc + 2 ∧
      { t with V := s.V, pc := s.pc, env := s.env } = s ∧
      (∀ b rest, s.env.randomBytes = b :: rest →
        r = b ∧ t.env = { s.env with randomBytes := rest })

/-! ## Who writes what (10_state.md) -/

/-- `VF` is overwritten as a flag by six instructions only, and each of them that completes leaves 0 or 1
in it (R22). -/
def Obligations.FlagWritersLeaveZeroOrOne : Prop :=
  ∀ (i : Instr) (s t : State), s.status = .running → exec i s = .next t →
    (i.writesFlag = true → t.readV regF = 0x00 ∨ t.readV regF = 0x01) ∧
    (i.writesFlag = false → i.names regF = false → t.readV regF = s.readV regF)

/-- No register changes but those the instruction names as its destination, and `VF` where the
instruction writes it as a flag (R21, R22, R135). -/
def Obligations.OnlyNamedRegistersChange : Prop :=
  ∀ (i : Instr) (s t : State) (r : Reg), exec i s = .next t → i.names r = false →
    (i.writesFlag = false ∨ r ≠ regF) → t.readV r = s.readV r

/-- Of the instructions, only `CALL` writes the stack, and only `CALL` and `RET` write `sp` (R28). -/
def Obligations.OnlyCallAndRetMoveTheStack : Prop :=
  ∀ (i : Instr) (s t : State), exec i s = .next t → (∀ nnn, i ≠ .call nnn) →
    t.stack = s.stack ∧ (i ≠ .ret → t.sp = s.sp)

/-- Of the instructions, only `Fx33` and `Fx55` write memory, only `00E0` and `Dxyn` the display, only
`Annn`, `Fx1E` and `Fx29` the register `I`, only `Fx15` the delay timer and only `Fx18` the sound timer
(R26, R27, R34, R61, R186). -/
def Obligations.EachUnitHasItsWriters : Prop :=
  ∀ (i : Instr) (s t : State), exec i s = .next t →
    ((∀ x, i ≠ .ldB x) → (∀ x, i ≠ .ldMemVx x) → t.mem = s.mem) ∧
    (i ≠ .cls → (∀ x y n, i ≠ .drw x y n) → t.pix = s.pix) ∧
    ((∀ nnn, i ≠ .ldI nnn) → (∀ x, i ≠ .addI x) → (∀ x, i ≠ .ldF x) → t.I = s.I) ∧
    ((∀ x, i ≠ .ldDtVx x) → t.dt = s.dt) ∧
    ((∀ x, i ≠ .ldStVx x) → t.st = s.st)

/-- No instruction writes the pause flag, the single-step request, `opcode`, the program length, the
clocks or what is scheduled (R29, R30, R31, R36, R286; `opcode` is the fetch's). -/
def Obligations.NoInstructionWritesControlState : Prop :=
  ∀ (i : Instr) (s t : State), exec i s = .next t →
    t.paused = s.paused ∧ t.singleStep = s.singleStep ∧ t.opcode = s.opcode ∧
      t.programLength = s.programLength ∧ t.cpuClock = s.cpuClock ∧ t.timerClock = s.timerClock ∧
      t.schedule = s.schedule

/-! ## Index register and memory (42_index_memory.md) -/

/-- `ADD I, Vx` wraps at 16 bits and writes no flag (R181; the spec's decision D12). -/
def Obligations.AddIndexWraps : Prop :=
  ∀ (x : Reg) (s : State),
    ∃ v : Word, v.toNat = (s.I.toNat + (s.readV x).toNat) % 65536 ∧
      exec (.addI x) s = .next { s with I := v, pc := s.pc + 2 }

/-- `LD F, Vx` loads the address of the digit's glyph; a value above `0xF` faults with `OutOfBounds` and
changes nothing else (R182, R62; the spec's decision D13). -/
def Obligations.LoadGlyphAddress : Prop :=
  ∀ (x : Reg) (s : State),
    ((s.readV x).toNat ≤ 0x0F →
      ∃ v : Word, v.toNat = 5 * (s.readV x).toNat ∧
        exec (.ldF x) s = .next { s with I := v, pc := s.pc + 2 }) ∧
    (0x0F < (s.readV x).toNat →
      exec (.ldF x) s =
        .next { s with status := .faulted (.outOfBounds (.digit (s.readV x).toNat)) })

/-- `LD B, Vx` with `I` below `0x0FFE` stores the three decimal digits of `Vx` at `I`, `I + 1`, `I + 2` and
changes no other byte and nothing else but `pc`; from `0x0FFE` on it faults with `OutOfBounds(I)` and
stores nothing (R183; the bound is the spec's decision D1). -/
def Obligations.StoreDecimalDigits : Prop :=
  ∀ (x : Reg) (s : State),
    (s.I.toNat < 0x0FFE →
      ∃ t, exec (.ldB x) s = .next t ∧
        (t.mem.read (indexAddr s 0)).toNat = (s.readV x).toNat / 100 ∧
        (t.mem.read (indexAddr s 1)).toNat = (s.readV x).toNat / 10 % 10 ∧
        (t.mem.read (indexAddr s 2)).toNat = (s.readV x).toNat % 10 ∧
        (∀ a, a ≠ indexAddr s 0 → a ≠ indexAddr s 1 → a ≠ indexAddr s 2 →
          t.mem.read a = s.mem.read a) ∧
        t.pc = s.pc + 2 ∧ { t with mem := s.mem, pc := s.pc } = s) ∧
    (0x0FFE ≤ s.I.toNat →
      exec (.ldB x) s =
        .next { s with status := .faulted (.outOfBounds (.address s.I.toNat)) })

/-- `LD [I], Vx` with `I + x` inside memory stores `V0` to `Vx` at `I` to `I + x` and changes no other byte
and nothing else but `pc`: `I` stays (R184, R186; the spec's decisions D1, D15). -/
def Obligations.StoreRegisterRun : Prop :=
  ∀ (x : Reg) (s : State), indexAddr s x.val < 0x1000 →
    ∃ t, exec (.ldMemVx x) s = .next t ∧
      (∀ i : Reg, i ≤ x → t.mem.read (indexAddr s i.val) = s.readV i) ∧
      (∀ a, (∀ i : Reg, i ≤ x → a ≠ indexAddr s i.val) → t.mem.read a = s.mem.read a) ∧
      t.pc = s.pc + 2 ∧ { t with mem := s.mem, pc := s.pc } = s

/-- `LD [I], Vx` whose run leaves memory at register `k` faults there with `OutOfBounds(I + k)`: `V0` to
`V(k-1)` have been stored, no other byte has changed, and `pc` stays (R184, R280; the spec's decisions
D1, D16, D33). -/
def Obligations.StoreRegisterRunFaultsPartWay : Prop :=
  ∀ (x k : Reg) (s : State), k ≤ x → 0x1000 ≤ indexAddr s k.val →
    (∀ i : Reg, i < k → indexAddr s i.val < 0x1000) →
    ∃ t, exec (.ldMemVx x) s = .next t ∧
      t.status = .faulted (.outOfBounds (.address (indexAddr s k.val))) ∧
      (∀ i : Reg, i < k → t.mem.read (indexAddr s i.val) = s.readV i) ∧
      (∀ a, (∀ i : Reg, i < k → a ≠ indexAddr s i.val) → t.mem.read a = s.mem.read a) ∧
      { t with mem := s.mem, status := s.status } = s

/-- `LD Vx, [I]` with `I + x` inside memory loads `V0` to `Vx` from `I` to `I + x` and changes nothing else
but `pc`: `I` and memory stay (R185, R186; the spec's decisions D1, D15). -/
def Obligations.LoadRegisterRun : Prop :=
  ∀ (x : Reg) (s : State), indexAddr s x.val < 0x1000 →
    ∃ t, exec (.ldVxMem x) s = .next t ∧
      (∀ i : Reg, t.readV i = if i ≤ x then s.mem.read (indexAddr s i.val) else s.readV i) ∧
      t.pc = s.pc + 2 ∧ { t with V := s.V, pc := s.pc } = s

/-- `LD Vx, [I]` whose run leaves memory at register `k` stops there at once with `OutOfBounds(I + k)`: `V0`
to `V(k-1)` hold their new values and the others their old ones (R185, R280; the spec's decisions D1,
D16, D33). -/
def Obligations.LoadRegisterRunFaultsPartWay : Prop :=
  ∀ (x k : Reg) (s : State), k ≤ x → 0x1000 ≤ indexAddr s k.val →
    (∀ i : Reg, i < k → indexAddr s i.val < 0x1000) →
    ∃ t, exec (.ldVxMem x) s = .next t ∧
      t.status = .faulted (.outOfBounds (.address (indexAddr s k.val))) ∧
      (∀ i : Reg, t.readV i = if i < k then s.mem.read (indexAddr s i.val) else s.readV i) ∧
      { t with V := s.V, status := s.status } = s

/-! ## Display (43_display.md) -/

/-- R201, R206: `CLS` makes every pixel false and changes nothing else but `pc`. -/
def Obligations.ClsClearsEveryPixel : Prop :=
  decode 0x00E0 = .cls ∧
  ∀ s : State, ∃ t, exec .cls s = .next t ∧ (∀ px py, t.pix.get px py = false) ∧ t.pc = s.pc + 2 ∧
    { t with pix := s.pix, pc := s.pc } = s

/-- A draw whose sprite bytes are in memory, whose set bits are on the grid and whose pixels the sink
accepts flips exactly the pixels under set bits, at the coordinates and from the `I` it had before, and
leaves in `VF` whether one of them was lit. A sprite of no rows reads no byte, so it completes for every `I`
(R202, R203, R205, R207; the spec's decisions D18, D19). -/
def Obligations.DrawFlipsCoveredPixels : Prop :=
  ∀ (x y : Reg) (n : Nibble) (s : State), (∀ r, r < n.toNat → s.I.toNat + r ≤ 0xFFF) →
    AllOnGrid (spritePixels s (s.readV x).toNat (s.readV y).toNat s.I.toNat n.toNat) →
    SinkAccepts s (spritePixels s (s.readV x).toNat (s.readV y).toNat s.I.toNat n.toNat).length →
    ∃ t, exec (.drw x y n) s = .next t ∧
      Drawn s t (spritePixels s (s.readV x).toNat (s.readV y).toNat s.I.toNat n.toNat) ∧
      t.pc = s.pc + 2

/-- Drawing the same sprite twice at the same place gives the display back; the second draw reports a
collision exactly where the sprite has a set bit over a pixel that was clear (R205 b, R207). "At the same
place" is a premise, since a first draw whose coordinate is in `VF` overwrites it; so is that the sink accepts
the pixels of both draws (R209). -/
def Obligations.DrawTwiceRestoresDisplay : Prop :=
  ∀ (x y : Reg) (n : Nibble) (s t : State), (∀ r, r < n.toNat → s.I.toNat + r ≤ 0xFFF) →
    AllOnGrid (spritePixels s (s.readV x).toNat (s.readV y).toNat s.I.toNat n.toNat) →
    SinkAccepts s
      (2 * (spritePixels s (s.readV x).toNat (s.readV y).toNat s.I.toNat n.toNat).length) →
    exec (.drw x y n) s = .next t →
    t.readV x = s.readV x → t.readV y = s.readV y →
    ∃ u, exec (.drw x y n) t = .next u ∧ u.pix = s.pix ∧
      (u.readV regF = 0x01 ↔
        ∃ p ∈ spritePixels s (s.readV x).toNat (s.readV y).toNat s.I.toNat n.toNat,
          s.pix.get p.1 p.2 = false) ∧
      (u.readV regF = 0x00 ∨ u.readV regF = 0x01)

/-- A draw whose first set bit off the grid is `p` faults there with `OutOfBounds`: the pixels before it
stay drawn, `VF` holds the collisions so far, `pc` stays. Only the rows up to that of `p`, `k` of them, need
lie in memory: a row beyond memory is read after them (R204, R207, R280, R283; neither wrap nor clip is the
spec's decision D17). -/
def Obligations.DrawOffGridFaults : Prop :=
  ∀ (x y : Reg) (n : Nibble) (k : Nat) (s : State) (before after : List (Nat × Nat))
    (p : Nat × Nat), k ≤ n.toNat → s.I.toNat + k ≤ 0x1000 →
    spritePixels s (s.readV x).toNat (s.readV y).toNat s.I.toNat k = before ++ p :: after →
    AllOnGrid before → (63 < p.1 ∨ 31 < p.2) → SinkAccepts s before.length →
    ∃ t, exec (.drw x y n) s =
        .next { t with status := .faulted (.outOfBounds (.pixel p.1 p.2)) } ∧
      Drawn s t before ∧ t.pc = s.pc

/-- A draw whose sprite runs past memory at row `k` faults there with `OutOfBounds(I + k)`: the rows before
it stay drawn, `VF` holds the collisions so far, `pc` stays (R207, R283; the bound is the spec's decision
D18). -/
def Obligations.DrawBeyondMemoryFaults : Prop :=
  ∀ (x y : Reg) (n : Nibble) (k : Nat) (s : State), k < n.toNat → 0xFFF < s.I.toNat + k →
    (∀ r, r < k → s.I.toNat + r ≤ 0xFFF) →
    AllOnGrid (spritePixels s (s.readV x).toNat (s.readV y).toNat s.I.toNat k) →
    SinkAccepts s (spritePixels s (s.readV x).toNat (s.readV y).toNat s.I.toNat k).length →
    ∃ t, exec (.drw x y n) s =
        .next { t with status := .faulted (.outOfBounds (.address (s.I.toNat + k))) } ∧
      Drawn s t (spritePixels s (s.readV x).toNat (s.readV y).toNat s.I.toNat k) ∧ t.pc = s.pc

/-- A draw at whose pixel `p` the sink fails raises `SubsystemError`: the pixels before `p` are drawn and
collected in `VF`, `p` itself has been flipped but its collision not collected, and `pc` stays. Only the
rows up to that of `p`, `k` of them, need lie in memory (R202, R209, R274, R280, R283; the state left behind
is the spec's decision D35). -/
def Obligations.DrawSinkFailureFaults : Prop :=
  ∀ (x y : Reg) (n : Nibble) (k : Nat) (s : State) (before after : List (Nat × Nat))
    (p : Nat × Nat), k ≤ n.toNat → s.I.toNat + k ≤ 0x1000 →
    spritePixels s (s.readV x).toNat (s.readV y).toNat s.I.toNat k = before ++ p :: after →
    AllOnGrid before → p.1 < 64 ∧ p.2 < 32 → s.env.sinkFailsAfter = some before.length →
    ∃ t, exec (.drw x y n) s =
        .next { t with pix := t.pix.toggle p.1 p.2, status := .faulted .subsystemError } ∧
      Drawn s t before ∧ t.pc = s.pc

/-! ## Keypad and timers (44_keypad_timers.md, 60_exceptions.md R287 to R293) -/

/-- `SKP` skips where the input source says that key `Vx` is down and `SKNP` where it says that it is up;
a listed answer is taken and any other answer is free; nothing but `pc` and the environment's answers
changes (R220, R221, R222; the spec's decision D20, log 1). -/
def Obligations.KeySkipsFollowTheKey : Prop :=
  ∀ (x : Reg) (s : State),
    ∃ (down : Bool) (e : Env),
      (∀ b rest, s.env.keyDowns = b :: rest → down = b ∧ e = { s.env with keyDowns := rest }) ∧
      (s.env.keyDowns = [] → down = Config.freeKeyDown s.env.asked (s.readV x)) ∧
      exec (.skp x) s =
        .next { s with pc := (if down = true then s.pc + 4 else s.pc + 2), env := e } ∧
      exec (.sknp x) s =
        .next { s with pc := (if down = true then s.pc + 2 else s.pc + 4), env := e }

/-- `Fx0A` stores the key of the next key press in `Vx`, unmasked, and goes on; where the quit request
comes first it has no effect and the run ends cleanly; where nothing ever comes its step never completes,
which the model answers with a stuck state (R223, R277; the spec's decision D21; what the answers past the
listed ones are is log 2, the stuck state log 3, the state a quit leaves log 4). -/
def Obligations.KeyWaitEndsAsTheEnvironmentSays : Prop :=
  ∀ (x : Reg) (s : State),
    (∀ k rest, s.env.keyWaits = .key k :: rest →
      ∃ t, exec (.ldVxK x) s = .next t ∧
        (∀ r, t.readV r = if r = x then k else s.readV r) ∧ t.pc = s.pc + 2 ∧
        { t with V := s.V, pc := s.pc } = { s with env := { s.env with keyWaits := rest } }) ∧
    (s.env.keyWaits = [] →
      ∃ k t, exec (.ldVxK x) s = .next t ∧
        (∀ r, t.readV r = if r = x then k else s.readV r) ∧ t.pc = s.pc + 2 ∧
        { t with V := s.V, pc := s.pc, env := s.env } = s) ∧
    (∀ rest, s.env.keyWaits = .quit :: rest →
      exec (.ldVxK x) s =
        .next { s with status := .quit, env := { s.env with keyWaits := rest } }) ∧
    (∀ rest, s.env.keyWaits = .never :: rest → exec (.ldVxK x) s = .fault .keyWaitNeverEnds)

/-- R224, R225, R226: the timer get and the two timer sets. -/
def Obligations.TimerGetAndSet : Prop :=
  (∀ w : Word,
    (w &&& 0xF0FF = 0xF007 → decode w = .ldVxDt (fieldX w)) ∧
    (w &&& 0xF0FF = 0xF015 → decode w = .ldDtVx (fieldX w)) ∧
    (w &&& 0xF0FF = 0xF018 → decode w = .ldStVx (fieldX w))) ∧
  ∀ (x : Reg) (s : State),
    WritesRegister (.ldVxDt x) s x s.dt ∧
    exec (.ldDtVx x) s = .next { s with dt := s.readV x, pc := s.pc + 2 } ∧
    (∃ t, exec (.ldStVx x) s = .next t ∧ t = { s with st := s.readV x, pc := s.pc + 2 } ∧
      (t.toneOn = true ↔ s.readV x ≠ 0))

/-- Each timer tick takes 1 from each timer that is not 0 and changes nothing else, paused or not, so a timer
that holds `N` reaches zero after exactly `N` ticks and stays there (R287, R288; the spec's decisions D22,
D24). -/
def Obligations.TimerReachesZeroAfterItsTicks : Prop :=
  ∀ (k : Nat) (s : State), s.status = .running → s.schedule = List.replicate k .timerTick →
    ∃ t, Sys2Proof.core.run k s = .next t ∧ t.dt.toNat = s.dt.toNat - k ∧
      t.st.toNat = s.st.toNat - k ∧ (t.dt = 0 ↔ s.dt.toNat ≤ k) ∧
      { t with dt := s.dt, st := s.st, schedule := s.schedule } = s

/-- `poll()` of a started clock ticks once where `now >= next_tick`, whatever the delay: it counts one tick and
measures the next deadline from `now`, so that ticks are lost, not made up; before the deadline it changes
nothing (R292; the update is the spec's decision D40). A tick of the timer clock is one timer tick; a tick of the
CPU clock, counted, is then exactly one step (R293). The period is 1000000 / frequency microseconds, where that
is no whole number either truncated or rounded up (R291; which of the two is open, log 12). -/
def Obligations.PollTicksAtMostOnce : Prop :=
  (∀ frequency, 0 < frequency →
    clockPeriod frequency = 1000000 / frequency ∨
      (1000000 % frequency ≠ 0 ∧ clockPeriod frequency = 1000000 / frequency + 1)) ∧
  ∀ (s : State) (now : Nat), s.status = .running →
    (∀ deadline, s.timerClock.nextTick = some deadline →
      (deadline ≤ now →
        transition (.pollTimerClock now) s =
          .next { s with
            dt := countDown s.dt
            st := countDown s.st
            timerClock :=
              { frequency := s.timerClock.frequency
                tickCount := s.timerClock.tickCount + 1
                nextTick := some (now + clockPeriod s.timerClock.frequency) } }) ∧
      (now < deadline → transition (.pollTimerClock now) s = .next s)) ∧
    (∀ deadline, s.cpuClock.nextTick = some deadline →
      (deadline ≤ now →
        transition (.pollCpuClock now) s =
          transition .cpuTick { s with
            cpuClock :=
              { frequency := s.cpuClock.frequency
                tickCount := s.cpuClock.tickCount + 1
                nextTick := some (now + clockPeriod s.cpuClock.frequency) } }) ∧
      (now < deadline → transition (.pollCpuClock now) s = .next s))

/-! ## Loader (20_memory.md) -/

/-- R77: `load_font()` writes the 80 font bytes at `0x000` to `0x04F` and nothing else, and running it twice
gives the same result as once. It holds for every 80 byte font; the host's `load_font` command loads the
parameter `FONT`, whose 80 bytes (log 9) the statement does not rest on. -/
def Obligations.LoadFontIsIdempotent : Prop :=
  ∀ (font : List Byte) (s : State), font.length = 80 →
    (∀ k, k < 80 → (loadFont font s).mem.read k = font.getD k 0) ∧
    (∀ a, 80 ≤ a → (loadFont font s).mem.read a = s.mem.read a) ∧
    { loadFont font s with mem := s.mem } = s ∧
    (∀ a, (loadFont font (loadFont font s)).mem.read a = (loadFont font s).mem.read a) ∧
    (s.mem.wf = true → loadFont font (loadFont font s) = loadFont font s) ∧
    (s.status = .running → transition .loadFont s = .next (loadFont Config.font s))

/-- `load_program` copies at most 3584 bytes verbatim to `0x200` on, records their number and changes no
other byte and nothing else; a longer one is a `DataError` and an unreadable one an `IOError`, and a failure
changes nothing but the latched `status` (R78; the unchanged memory is the spec's decision D47, the latch
D32 and log 11). -/
def Obligations.LoadProgramCopiesVerbatim : Prop :=
  ∀ s : State, s.status = .running →
    (∀ bytes : List Byte, bytes.length ≤ 3584 →
      ∃ t, transition (.loadProgram (some bytes)) s = .next t ∧
        (∀ k, k < bytes.length → t.mem.read (0x200 + k) = bytes.getD k 0) ∧
        (∀ a, (a < 0x200 ∨ 0x200 + bytes.length ≤ a) → t.mem.read a = s.mem.read a) ∧
        t.programLength = bytes.length ∧
        { t with mem := s.mem, programLength := s.programLength } = s) ∧
    (∀ bytes : List Byte, 3584 < bytes.length →
      transition (.loadProgram (some bytes)) s =
        .next { s with status := .faulted (.dataError .oversizedProgram) }) ∧
    transition (.loadProgram none) s = .next { s with status := .faulted .ioError }

/-- Memory `reset()` clears `0x200` to `0xFFF`, leaves every byte below and all else, and sets the program
length to 0 (R79, R311; the program length is the spec's decision D34). -/
def Obligations.MemoryResetKeepsFont : Prop :=
  ∀ s : State, s.status = .running →
    ∃ t, transition .memoryReset s = .next t ∧
      (∀ a, 0x200 ≤ a → a ≤ 0xFFF → t.mem.read a = 0) ∧
      (∀ a, a < 0x200 → t.mem.read a = s.mem.read a) ∧
      t.programLength = 0 ∧ { t with mem := s.mem, programLength := s.programLength } = s

/-! ## Savestate (45_savestate_codec.md) -/

/-- The image that `capture` produces is 4415 bytes in the layout of R241: tags, registers, little-endian
16-bit fields, memory in address order, eight pixels a byte with the leftmost in bit 7 (R241 to R245; the
order of rows and bytes is the spec's decision D31, the tag's byte values its general knowledge). -/
def Obligations.CaptureFollowsLayout : Prop :=
  ∀ s : State,
    (capture s).length = 4415 ∧
    (capture s).take 4 = [0x4B, 0x38, 0x45, 0x00] ∧
    (∀ i : Reg, byteAt (capture s) (4 + i.val) = s.readV i) ∧
    (byteAt (capture s) 20).toNat = s.I.toNat % 256 ∧
    (byteAt (capture s) 21).toNat = s.I.toNat / 256 ∧
    byteAt (capture s) 22 = s.dt ∧ byteAt (capture s) 23 = s.st ∧
    (byteAt (capture s) 24).toNat = s.pc.toNat % 256 ∧
    (byteAt (capture s) 25).toNat = s.pc.toNat / 256 ∧
    byteAt (capture s) 26 = s.sp ∧
    (∀ k, k < 16 →
      (byteAt (capture s) (27 + 2 * k)).toNat = (s.readStack k).toNat % 256 ∧
      (byteAt (capture s) (28 + 2 * k)).toNat = (s.readStack k).toNat / 256) ∧
    (∀ a, a < 4096 → byteAt (capture s) (59 + a) = s.mem.read a) ∧
    (∀ px py, px < 64 → py < 32 →
      (byteAt (capture s) (4155 + 8 * py + px / 8)).getLsbD (7 - px % 8) = s.pix.get px py) ∧
    (capture s).drop 4411 = [0x46, 0x49, 0x4E, 0x00]

/-- Restoring a captured image into any running machine reproduces what the layout carries (registers,
timers, `pc`, stack, memory, display) and leaves the rest of the target as it was but for the sink's answers
(R254, R247, R249, R250; the spec's decisions D26 to D28). Where the sink, told of all 2048 pixels after the
commit, fails at one, the block is as fully restored and `SubsystemError` is latched (R253, R274; D32, D35,
log 11). The memory invariant is the premise under which equal bytes are equal memories. -/
def Obligations.RestoreOfCapture : Prop :=
  ∀ s t : State, s.mem.wf = true → t.status = .running →
    (SinkAccepts t 2048 →
      transition (.restoreState (some (capture s))) t = .next
        { t with
          V := s.V, I := s.I, dt := s.dt, st := s.st, pc := s.pc, sp := s.sp, stack := s.stack
          mem := s.mem, pix := s.pix, env := envAfterPixels t 2048 }) ∧
    (∀ accepted, t.env.sinkFailsAfter = some accepted → accepted < 2048 →
      transition (.restoreState (some (capture s))) t = .next
        { t with
          V := s.V, I := s.I, dt := s.dt, st := s.st, pc := s.pc, sp := s.sp, stack := s.stack
          mem := s.mem, pix := s.pix, env := envAfterPixels t accepted
          status := .faulted .subsystemError })

/-- Every image of 4415 bytes with the two tags is accepted, whatever its body is, and capturing after its
restore returns it exactly: no bit of an image is dropped or normalised (R251, R254; the spec's decision
D29). -/
def Obligations.CaptureOfRestore : Prop :=
  ∀ (b : List Byte) (t : State), b.length = 4415 → b.take 4 = [0x4B, 0x38, 0x45, 0x00] →
    b.drop 4411 = [0x46, 0x49, 0x4E, 0x00] →
    ∃ u, restore (some b) t = .ok u ∧ capture u = b

/-- A restore that fails changes nothing: an unreadable or short source is an `IOError`, a wrong header a
`DataError` that names it, also where the footer is wrong too, and a wrong footer a `DataError` that names
the footer; bytes past the 4415th are not looked at (R247, R248, R252; the spec's decisions D26, D30, D48;
that the host latches the fault is D32 and log 11). Writing a captured image out changes nothing, and where
that write fails it is an `IOError` and changes nothing else (R245, R246, R275). -/
def Obligations.FailedRestoreChangesNothing : Prop :=
  ∀ (b : List Byte) (s : State), s.status = .running →
    transition (.restoreState none) s = .next { s with status := .faulted .ioError } ∧
    (b.length < 4415 →
      transition (.restoreState (some b)) s = .next { s with status := .faulted .ioError }) ∧
    (4415 ≤ b.length → b.take 4 ≠ [0x4B, 0x38, 0x45, 0x00] →
      transition (.restoreState (some b)) s =
        .next { s with status := .faulted (.dataError .header) }) ∧
    (4415 ≤ b.length → b.take 4 = [0x4B, 0x38, 0x45, 0x00] →
      (b.drop 4411).take 4 ≠ [0x46, 0x49, 0x4E, 0x00] →
      transition (.restoreState (some b)) s =
        .next { s with status := .faulted (.dataError .footer) }) ∧
    (∀ extra : List Byte, 4415 ≤ b.length → restore (some (b ++ extra)) s = restore (some b) s) ∧
    transition (.saveState true) s = .next s ∧
    transition (.saveState false) s = .next { s with status := .faulted .ioError }

/-! ## Reset and invariants (70_reset_and_hazards.md R310, 10_state.md R37) -/

/-- The state right after creation has the values that R310 gives, `paused` and the CPU frequency being the
configuration's (that `paused` is set at creation is the spec's decision D37; the two values that
`State.reset` takes are log 8). -/
def Obligations.CreationState : Prop :=
  (∀ (pause : Bool) (hz : Nat),
    (∀ r, (State.create pause hz).readV r = 0x00) ∧
    (State.create pause hz).I = 0x0000 ∧ (State.create pause hz).dt = 0x00 ∧
    (State.create pause hz).st = 0x00 ∧ (State.create pause hz).pc = 0x0200 ∧
    (State.create pause hz).sp = 0x00 ∧ (∀ k, (State.create pause hz).readStack k = 0x0000) ∧
    (State.create pause hz).opcode = 0x0000 ∧ (State.create pause hz).paused = pause ∧
    (State.create pause hz).singleStep = false ∧
    (∀ a, (State.create pause hz).mem.read a = 0x00) ∧
    (State.create pause hz).programLength = 0 ∧
    (∀ px py, (State.create pause hz).pix.get px py = false) ∧
    (State.create pause hz).status = .running ∧ (State.create pause hz).toneOn = false ∧
    (State.create pause hz).cpuClock = { frequency := hz, tickCount := 0, nextTick := none } ∧
    (State.create pause hz).timerClock = { frequency := 60, tickCount := 0, nextTick := none }) ∧
  ∃ pause hz, State.reset = State.create pause hz

/-- The memory invariant and the loader's bound are kept by every step, whatever the transition is: an
instruction, a timer tick or a host operation (R33, R37, R64). -/
def Obligations.StepKeepsMemoryInvariant : Prop :=
  ∀ s t : State, s.mem.wf = true → s.programLength ≤ 3584 → step s = .next t →
    t.mem.wf = true ∧ t.programLength ≤ 3584

/-- The memory invariant and the loader's bound hold at reset. -/
def Obligations.ResetMeetsMemoryInvariant : Prop :=
  State.reset.mem.wf = true ∧ State.reset.programLength ≤ 3584

/-- `0 <= sp <= 16` is kept by every step of a machine that schedules no restore, and no step schedules one
(R28, R37; the range is the spec's decision D4). -/
def Obligations.StepKeepsStackBound : Prop :=
  ∀ s t : State, s.sp.toNat ≤ 16 → (∀ source, Event.restoreState source ∉ s.schedule) →
    step s = .next t →
    t.sp.toNat ≤ 16 ∧ (∀ source, Event.restoreState source ∉ t.schedule)
end

