-- ==== Sys2Proof/Laws/Memory.lean ====
section
/-! SUPPORT. The laws of the byte memory: read after write, the frame of a write, and that every memory
operation keeps the canonical form. -/

namespace Sys2Proof.Machine

@[simp] theorem Memory.read_nil (a : Nat) : Memory.read [] a = Memory.unlisted := rfl

/-! ### Reads -/

theorem Memory.read_erase (m : Memory) (k a : Nat) :
    (m.erase k).read a = if a = k then Memory.unlisted else m.read a := by
  induction m with
  | nil => simp [Memory.erase]
  | cons c rest ih =>
    obtain ⟨k', v⟩ := c
    by_cases h : k' = k
    · subst h
      rw [Memory.erase, if_pos rfl, ih]
      by_cases ha : a = k'
      · simp [ha]
      · simp [Memory.read, ha, Ne.symm ha]
    · by_cases ha : k' = a
      · subst ha
        simp [Memory.erase, Memory.read, h]
      · simp [Memory.erase, Memory.read, h, ha, ih]

theorem Memory.read_insert (m : Memory) (k a : Nat) (v : Byte)
    (hm : m.read k = Memory.unlisted) (hk : ∀ c ∈ m, c.1 ≠ k) :
    (m.insert k v).read a = if a = k then v else m.read a := by
  induction m with
  | nil =>
    by_cases h : a = k
    · simp [Memory.insert, Memory.read, h]
    · simp [Memory.insert, Memory.read, h, Ne.symm h]
  | cons c rest ih =>
    obtain ⟨k', w⟩ := c
    have hne : k' ≠ k := hk (k', w) (by simp)
    have hrest : Memory.read rest k = Memory.unlisted := by simpa [Memory.read, hne] using hm
    have ih := ih hrest (fun c hc => hk c (by simp [hc]))
    by_cases hlt : k < k'
    · by_cases h : a = k
      · simp [Memory.insert, hlt, Memory.read, h]
      · simp [Memory.insert, hlt, Memory.read, h, Ne.symm h]
    · by_cases h : k' = a
      · subst h
        simp [Memory.insert, hlt, Memory.read, hne]
      · simp [Memory.insert, hlt, Memory.read, h, ih]

theorem Memory.not_mem_erase (m : Memory) (k : Nat) : ∀ c ∈ m.erase k, c.1 ≠ k := by
  induction m with
  | nil => simp [Memory.erase]
  | cons c rest ih =>
    obtain ⟨k', v⟩ := c
    by_cases h : k' = k
    · simpa [Memory.erase, h] using ih
    · simp only [Memory.erase, h, if_false, List.mem_cons, forall_eq_or_imp]
      exact ⟨h, ih⟩

/-- Read after write: the written address gives the written byte, every other address what it gave
before. It holds of every list of cells. -/
theorem Memory.read_write (m : Memory) (k a : Nat) (v : Byte) :
    (m.write k v).read a = if a = k then v else m.read a := by
  unfold Memory.write
  split
  · next h => simp [Memory.read_erase, h]
  · rw [Memory.read_insert _ _ _ _ (by simp [Memory.read_erase]) (Memory.not_mem_erase m k),
      Memory.read_erase]
    split <;> simp_all

@[simp] theorem Memory.read_write_same (m : Memory) (k : Nat) (v : Byte) :
    (m.write k v).read k = v := by simp [Memory.read_write]

theorem Memory.read_write_of_ne (m : Memory) {k a : Nat} (h : a ≠ k) (v : Byte) :
    (m.write k v).read a = m.read a := by simp [Memory.read_write, h]

theorem Memory.read_writeBytes (m : Memory) (k a : Nat) (bs : List Byte) :
    (m.writeBytes k bs).read a =
      if k ≤ a ∧ a < k + bs.length then bs.getD (a - k) 0 else m.read a := by
  induction bs generalizing m k with
  | nil =>
    have h : ¬(k ≤ a ∧ a < k + ([] : List Byte).length) := by simp
    rw [if_neg h]
    rfl
  | cons b rest ih =>
    rw [Memory.writeBytes, ih]
    by_cases h0 : a = k
    · subst h0
      simp
    · rw [Memory.read_write_of_ne m h0]
      by_cases h1 : k + 1 ≤ a ∧ a < k + 1 + rest.length
      · have h2 : k ≤ a ∧ a < k + (b :: rest).length := by simp; omega
        have h3 : a - k = (a - (k + 1)) + 1 := by omega
        rw [if_pos h1, if_pos h2, h3, List.getD_cons_succ]
      · have h2 : ¬(k ≤ a ∧ a < k + (b :: rest).length) := by simp; omega
        simp only [h1, h2, if_false]

theorem Memory.read_ofBytes (k a : Nat) (bs : List Byte) :
    (Memory.ofBytes k bs).read a = if k ≤ a then bs.getD (a - k) 0 else 0 := by
  induction bs generalizing k with
  | nil => simp [Memory.ofBytes, Memory.unlisted]
  | cons b rest ih =>
    by_cases h0 : a = k
    · subst h0
      by_cases hb : b = Memory.unlisted
      · simp [Memory.ofBytes, hb, ih, Memory.unlisted]
      · simp [Memory.ofBytes, hb, Memory.read]
    · have h1 : k ≤ a ↔ k + 1 ≤ a := by omega
      have h2 : k + 1 ≤ a → a - k = (a - (k + 1)) + 1 := by omega
      by_cases hb : b = Memory.unlisted
      · by_cases hk : k + 1 ≤ a
        · simp [Memory.ofBytes, hb, ih, h1, hk, h2 hk]
        · simp [Memory.ofBytes, hb, ih, h1, hk]
      · by_cases hk : k + 1 ≤ a
        · simp [Memory.ofBytes, hb, Memory.read, ih, h1, hk, h2 hk, Ne.symm h0]
        · simp [Memory.ofBytes, hb, Memory.read, ih, h1, hk, Ne.symm h0]

theorem Memory.read_filter (m : Memory) (p : Nat → Bool) (a : Nat) :
    Memory.read (m.filter fun c => p c.1) a = if p a then m.read a else Memory.unlisted := by
  induction m with
  | nil => simp
  | cons c rest ih =>
    obtain ⟨k, v⟩ := c
    by_cases hp : p k
    · by_cases h : k = a
      · subst h
        simp [hp, Memory.read]
      · simp [hp, Memory.read, h, ih]
    · by_cases h : k = a
      · subst h
        simp [hp, ih]
      · simp [hp, Memory.read, h, ih]

/-! ### The canonical form

`Memory.Canon low m`: the addresses of `m` rise strictly from `low` on, stay inside the address space,
and no cell holds the reset content. `Memory.wf` is `Canon 0`. -/

/-- The canonical form from an address on, as a recursive proposition. -/
def Memory.Canon : Nat → Memory → Prop
  | _, [] => True
  | low, (k, v) :: rest =>
    low ≤ k ∧ k < Config.memSize ∧ v ≠ Memory.unlisted ∧ Memory.Canon (k + 1) rest

theorem Memory.canon_iff (low : Nat) (m : Memory) :
    Memory.Canon low m ↔ Memory.risingFrom low m = true ∧
      (m.all fun c => decide (c.1 < Config.memSize) && c.2 != Memory.unlisted) = true := by
  induction m generalizing low with
  | nil => simp [Memory.Canon, Memory.risingFrom]
  | cons c rest ih =>
    obtain ⟨k, v⟩ := c
    simp only [Memory.Canon, Memory.risingFrom, ih, List.all_cons, Bool.and_eq_true,
      decide_eq_true_eq, bne_iff_ne]
    tauto

theorem Memory.wf_iff (m : Memory) : m.wf = true ↔ Memory.Canon 0 m := by
  rw [Memory.canon_iff, Memory.wf, Bool.and_eq_true]

theorem Memory.Canon.mono {low low' : Nat} {m : Memory} (h : Memory.Canon low m)
    (hl : low' ≤ low) : Memory.Canon low' m := by
  cases m with
  | nil => trivial
  | cons c rest => exact ⟨by have := h.1; omega, h.2⟩

theorem Memory.Canon.erase {low : Nat} {m : Memory} (h : Memory.Canon low m) (k : Nat) :
    Memory.Canon low (m.erase k) := by
  induction m generalizing low with
  | nil => trivial
  | cons c rest ih =>
    obtain ⟨k', v⟩ := c
    obtain ⟨h1, h2, h3, h4⟩ := h
    by_cases hk : k' = k
    · simpa [Memory.erase, hk] using (ih h4).mono (by omega)
    · simp only [Memory.erase, hk, if_false]
      exact ⟨h1, h2, h3, ih h4⟩

theorem Memory.Canon.insert {low : Nat} {m : Memory} (h : Memory.Canon low m) {k : Nat} {v : Byte}
    (hm : ∀ c ∈ m, c.1 ≠ k) (hl : low ≤ k) (hk : k < Config.memSize)
    (hv : v ≠ Memory.unlisted) : Memory.Canon low (m.insert k v) := by
  induction m generalizing low with
  | nil => exact ⟨hl, hk, hv, trivial⟩
  | cons c rest ih =>
    obtain ⟨k', w⟩ := c
    obtain ⟨h1, h2, h3, h4⟩ := h
    have hne : k' ≠ k := hm (k', w) (by simp)
    by_cases hlt : k < k'
    · simp only [Memory.insert, hlt, if_true]
      exact ⟨hl, hk, hv, by omega, h2, h3, h4⟩
    · simp only [Memory.insert, hlt, if_false]
      exact ⟨h1, h2, h3, ih h4 (fun c hc => hm c (by simp [hc])) (by omega)⟩

/-- A write inside the address space keeps the canonical form. -/
theorem Memory.wf_write {m : Memory} (h : m.wf = true) {k : Nat} (hk : k < Config.memSize)
    (v : Byte) : (m.write k v).wf = true := by
  rw [Memory.wf_iff] at *
  unfold Memory.write
  split
  · exact h.erase k
  · next hv => exact (h.erase k).insert (Memory.not_mem_erase m k) (Nat.zero_le _) hk hv

theorem Memory.wf_writeBytes {m : Memory} (h : m.wf = true) {k : Nat} {bs : List Byte}
    (hk : k + bs.length ≤ Config.memSize) : (m.writeBytes k bs).wf = true := by
  induction bs generalizing m k with
  | nil => exact h
  | cons b rest ih =>
    simp only [List.length_cons] at hk
    exact ih (Memory.wf_write h (by omega) b) (by omega)

theorem Memory.canon_ofBytes {k : Nat} {bs : List Byte} (hk : k + bs.length ≤ Config.memSize) :
    Memory.Canon k (Memory.ofBytes k bs) := by
  induction bs generalizing k with
  | nil => trivial
  | cons b rest ih =>
    simp only [List.length_cons] at hk
    have ih := ih (k := k + 1) (by omega)
    by_cases hb : b = Memory.unlisted
    · simpa [Memory.ofBytes, hb] using ih.mono (by omega)
    · simp only [Memory.ofBytes, hb, if_false]
      exact ⟨Nat.le_refl _, by omega, hb, ih⟩

theorem Memory.wf_ofBytes {bs : List Byte} (hk : bs.length ≤ Config.memSize) :
    (Memory.ofBytes 0 bs).wf = true := by
  rw [Memory.wf_iff]
  exact Memory.canon_ofBytes (by omega)

theorem Memory.Canon.filter {low : Nat} {m : Memory} (h : Memory.Canon low m)
    (p : Host.Cell → Bool) : Memory.Canon low (m.filter p) := by
  induction m generalizing low with
  | nil => trivial
  | cons c rest ih =>
    obtain ⟨k, v⟩ := c
    obtain ⟨h1, h2, h3, h4⟩ := h
    by_cases hp : p (k, v)
    · simp only [List.filter_cons, hp, if_true]
      exact ⟨h1, h2, h3, ih h4⟩
    · simpa [List.filter_cons, hp] using (ih h4).mono (by omega)

theorem Memory.wf_filter {m : Memory} (h : m.wf = true) (p : Host.Cell → Bool) :
    Memory.wf (m.filter p) = true := by
  rw [Memory.wf_iff] at *
  exact h.filter p

theorem Memory.Canon.read_below {low : Nat} {m : Memory} (h : Memory.Canon low m) {a : Nat}
    (ha : a < low) : m.read a = Memory.unlisted := by
  induction m generalizing low with
  | nil => rfl
  | cons c rest ih =>
    obtain ⟨k, v⟩ := c
    obtain ⟨h1, _, _, h4⟩ := h
    have hne : k ≠ a := by omega
    simpa [Memory.read, hne] using ih h4 (by omega)

/-- Two canonical memories that read the same everywhere are the same list. -/
theorem Memory.Canon.ext {low : Nat} {m m' : Memory} (h : Memory.Canon low m)
    (h' : Memory.Canon low m') (hr : ∀ a, m.read a = m'.read a) : m = m' := by
  induction m generalizing low m' with
  | nil =>
    cases m' with
    | nil => rfl
    | cons c rest =>
      have := hr c.1
      simp only [Memory.read, if_true] at this
      exact absurd this.symm h'.2.2.1
  | cons c rest ih =>
    obtain ⟨k, v⟩ := c
    cases m' with
    | nil =>
      have := hr k
      simp only [Memory.read, if_true] at this
      exact absurd this h.2.2.1
    | cons c' rest' =>
      obtain ⟨k', v'⟩ := c'
      have hkk : k = k' := by
        by_contra hne
        rcases Nat.lt_or_gt_of_ne hne with hlt | hgt
        · have h1 := hr k
          have h2 := h'.2.2.2.read_below (a := k) (by omega)
          simp only [Memory.read, if_true, Ne.symm hne, if_false, h2] at h1
          exact h.2.2.1 h1
        · have h1 := hr k'
          have h2 := h.2.2.2.read_below (a := k') (by omega)
          simp only [Memory.read, if_true, hne, if_false, h2] at h1
          exact h'.2.2.1 h1.symm
      subst hkk
      have hv : v = v' := by simpa [Memory.read] using hr k
      subst hv
      rw [ih h.2.2.2 h'.2.2.2 fun a => ?_]
      by_cases ha : k = a
      · subst ha
        rw [h.2.2.2.read_below (by omega), h'.2.2.2.read_below (by omega)]
      · simpa [Memory.read, ha] using hr a

theorem Memory.ext_of_wf {m m' : Memory} (h : m.wf = true) (h' : m'.wf = true)
    (hr : ∀ a, m.read a = m'.read a) : m = m' :=
  ((Memory.wf_iff m).1 h).ext ((Memory.wf_iff m').1 h') hr

theorem Memory.Canon.read_above {low : Nat} {m : Memory} (h : Memory.Canon low m) {a : Nat}
    (ha : Config.memSize ≤ a) : m.read a = Memory.unlisted := by
  induction m generalizing low with
  | nil => rfl
  | cons c rest ih =>
    obtain ⟨k, v⟩ := c
    obtain ⟨_, h2, _, h4⟩ := h
    have hne : k ≠ a := by omega
    simpa [Memory.read, hne] using ih h4

/-- A canonical memory holds nothing outside the address space. -/
theorem Memory.read_outside {m : Memory} (h : m.wf = true) {a : Nat} (ha : Config.memSize ≤ a) :
    m.read a = Memory.unlisted := ((Memory.wf_iff m).1 h).read_above ha

end Sys2Proof.Machine
end

