-- ==== Sys2Proof/Laws/State.lean ====
section
/-! SUPPORT. One lemma per field per state update, each true by rfl, so that no later proof unfolds a
record update; and the register and stack accessors over the updates that do not touch them. -/

namespace Sys2Proof.Machine

variable (s : State)

/-! ### writeV -/

@[simp] theorem writeV_V (i : Reg) (v : Byte) : (s.writeV i v).V = s.V.set i v := rfl
@[simp] theorem writeV_I (i : Reg) (v : Byte) : (s.writeV i v).I = s.I := rfl
@[simp] theorem writeV_dt (i : Reg) (v : Byte) : (s.writeV i v).dt = s.dt := rfl
@[simp] theorem writeV_st (i : Reg) (v : Byte) : (s.writeV i v).st = s.st := rfl
@[simp] theorem writeV_pc (i : Reg) (v : Byte) : (s.writeV i v).pc = s.pc := rfl
@[simp] theorem writeV_sp (i : Reg) (v : Byte) : (s.writeV i v).sp = s.sp := rfl
@[simp] theorem writeV_stack (i : Reg) (v : Byte) : (s.writeV i v).stack = s.stack := rfl
@[simp] theorem writeV_opcode (i : Reg) (v : Byte) : (s.writeV i v).opcode = s.opcode := rfl
@[simp] theorem writeV_paused (i : Reg) (v : Byte) : (s.writeV i v).paused = s.paused := rfl
@[simp] theorem writeV_singleStep (i : Reg) (v : Byte) : (s.writeV i v).singleStep = s.singleStep := rfl
@[simp] theorem writeV_mem (i : Reg) (v : Byte) : (s.writeV i v).mem = s.mem := rfl
@[simp] theorem writeV_programLength (i : Reg) (v : Byte) : (s.writeV i v).programLength = s.programLength := rfl
@[simp] theorem writeV_pix (i : Reg) (v : Byte) : (s.writeV i v).pix = s.pix := rfl
@[simp] theorem writeV_status (i : Reg) (v : Byte) : (s.writeV i v).status = s.status := rfl
@[simp] theorem writeV_cpuClock (i : Reg) (v : Byte) : (s.writeV i v).cpuClock = s.cpuClock := rfl
@[simp] theorem writeV_timerClock (i : Reg) (v : Byte) : (s.writeV i v).timerClock = s.timerClock := rfl
@[simp] theorem writeV_env (i : Reg) (v : Byte) : (s.writeV i v).env = s.env := rfl
@[simp] theorem writeV_schedule (i : Reg) (v : Byte) : (s.writeV i v).schedule = s.schedule := rfl
@[simp] theorem writeV_readStack (i : Reg) (v : Byte) (k : Nat) : (s.writeV i v).readStack k = s.readStack k := rfl

/-! ### setI -/

@[simp] theorem setI_V (v : Word) : (s.setI v).V = s.V := rfl
@[simp] theorem setI_I (v : Word) : (s.setI v).I = v := rfl
@[simp] theorem setI_dt (v : Word) : (s.setI v).dt = s.dt := rfl
@[simp] theorem setI_st (v : Word) : (s.setI v).st = s.st := rfl
@[simp] theorem setI_pc (v : Word) : (s.setI v).pc = s.pc := rfl
@[simp] theorem setI_sp (v : Word) : (s.setI v).sp = s.sp := rfl
@[simp] theorem setI_stack (v : Word) : (s.setI v).stack = s.stack := rfl
@[simp] theorem setI_opcode (v : Word) : (s.setI v).opcode = s.opcode := rfl
@[simp] theorem setI_paused (v : Word) : (s.setI v).paused = s.paused := rfl
@[simp] theorem setI_singleStep (v : Word) : (s.setI v).singleStep = s.singleStep := rfl
@[simp] theorem setI_mem (v : Word) : (s.setI v).mem = s.mem := rfl
@[simp] theorem setI_programLength (v : Word) : (s.setI v).programLength = s.programLength := rfl
@[simp] theorem setI_pix (v : Word) : (s.setI v).pix = s.pix := rfl
@[simp] theorem setI_status (v : Word) : (s.setI v).status = s.status := rfl
@[simp] theorem setI_cpuClock (v : Word) : (s.setI v).cpuClock = s.cpuClock := rfl
@[simp] theorem setI_timerClock (v : Word) : (s.setI v).timerClock = s.timerClock := rfl
@[simp] theorem setI_env (v : Word) : (s.setI v).env = s.env := rfl
@[simp] theorem setI_schedule (v : Word) : (s.setI v).schedule = s.schedule := rfl
@[simp] theorem setI_readV (v : Word) (r : Reg) : (s.setI v).readV r = s.readV r := rfl
@[simp] theorem setI_readStack (v : Word) (k : Nat) : (s.setI v).readStack k = s.readStack k := rfl

/-! ### setDt -/

@[simp] theorem setDt_V (v : Byte) : (s.setDt v).V = s.V := rfl
@[simp] theorem setDt_I (v : Byte) : (s.setDt v).I = s.I := rfl
@[simp] theorem setDt_dt (v : Byte) : (s.setDt v).dt = v := rfl
@[simp] theorem setDt_st (v : Byte) : (s.setDt v).st = s.st := rfl
@[simp] theorem setDt_pc (v : Byte) : (s.setDt v).pc = s.pc := rfl
@[simp] theorem setDt_sp (v : Byte) : (s.setDt v).sp = s.sp := rfl
@[simp] theorem setDt_stack (v : Byte) : (s.setDt v).stack = s.stack := rfl
@[simp] theorem setDt_opcode (v : Byte) : (s.setDt v).opcode = s.opcode := rfl
@[simp] theorem setDt_paused (v : Byte) : (s.setDt v).paused = s.paused := rfl
@[simp] theorem setDt_singleStep (v : Byte) : (s.setDt v).singleStep = s.singleStep := rfl
@[simp] theorem setDt_mem (v : Byte) : (s.setDt v).mem = s.mem := rfl
@[simp] theorem setDt_programLength (v : Byte) : (s.setDt v).programLength = s.programLength := rfl
@[simp] theorem setDt_pix (v : Byte) : (s.setDt v).pix = s.pix := rfl
@[simp] theorem setDt_status (v : Byte) : (s.setDt v).status = s.status := rfl
@[simp] theorem setDt_cpuClock (v : Byte) : (s.setDt v).cpuClock = s.cpuClock := rfl
@[simp] theorem setDt_timerClock (v : Byte) : (s.setDt v).timerClock = s.timerClock := rfl
@[simp] theorem setDt_env (v : Byte) : (s.setDt v).env = s.env := rfl
@[simp] theorem setDt_schedule (v : Byte) : (s.setDt v).schedule = s.schedule := rfl
@[simp] theorem setDt_readV (v : Byte) (r : Reg) : (s.setDt v).readV r = s.readV r := rfl
@[simp] theorem setDt_readStack (v : Byte) (k : Nat) : (s.setDt v).readStack k = s.readStack k := rfl

/-! ### setSt -/

@[simp] theorem setSt_V (v : Byte) : (s.setSt v).V = s.V := rfl
@[simp] theorem setSt_I (v : Byte) : (s.setSt v).I = s.I := rfl
@[simp] theorem setSt_dt (v : Byte) : (s.setSt v).dt = s.dt := rfl
@[simp] theorem setSt_st (v : Byte) : (s.setSt v).st = v := rfl
@[simp] theorem setSt_pc (v : Byte) : (s.setSt v).pc = s.pc := rfl
@[simp] theorem setSt_sp (v : Byte) : (s.setSt v).sp = s.sp := rfl
@[simp] theorem setSt_stack (v : Byte) : (s.setSt v).stack = s.stack := rfl
@[simp] theorem setSt_opcode (v : Byte) : (s.setSt v).opcode = s.opcode := rfl
@[simp] theorem setSt_paused (v : Byte) : (s.setSt v).paused = s.paused := rfl
@[simp] theorem setSt_singleStep (v : Byte) : (s.setSt v).singleStep = s.singleStep := rfl
@[simp] theorem setSt_mem (v : Byte) : (s.setSt v).mem = s.mem := rfl
@[simp] theorem setSt_programLength (v : Byte) : (s.setSt v).programLength = s.programLength := rfl
@[simp] theorem setSt_pix (v : Byte) : (s.setSt v).pix = s.pix := rfl
@[simp] theorem setSt_status (v : Byte) : (s.setSt v).status = s.status := rfl
@[simp] theorem setSt_cpuClock (v : Byte) : (s.setSt v).cpuClock = s.cpuClock := rfl
@[simp] theorem setSt_timerClock (v : Byte) : (s.setSt v).timerClock = s.timerClock := rfl
@[simp] theorem setSt_env (v : Byte) : (s.setSt v).env = s.env := rfl
@[simp] theorem setSt_schedule (v : Byte) : (s.setSt v).schedule = s.schedule := rfl
@[simp] theorem setSt_readV (v : Byte) (r : Reg) : (s.setSt v).readV r = s.readV r := rfl
@[simp] theorem setSt_readStack (v : Byte) (k : Nat) : (s.setSt v).readStack k = s.readStack k := rfl

/-! ### setPc -/

@[simp] theorem setPc_V (v : Word) : (s.setPc v).V = s.V := rfl
@[simp] theorem setPc_I (v : Word) : (s.setPc v).I = s.I := rfl
@[simp] theorem setPc_dt (v : Word) : (s.setPc v).dt = s.dt := rfl
@[simp] theorem setPc_st (v : Word) : (s.setPc v).st = s.st := rfl
@[simp] theorem setPc_pc (v : Word) : (s.setPc v).pc = v := rfl
@[simp] theorem setPc_sp (v : Word) : (s.setPc v).sp = s.sp := rfl
@[simp] theorem setPc_stack (v : Word) : (s.setPc v).stack = s.stack := rfl
@[simp] theorem setPc_opcode (v : Word) : (s.setPc v).opcode = s.opcode := rfl
@[simp] theorem setPc_paused (v : Word) : (s.setPc v).paused = s.paused := rfl
@[simp] theorem setPc_singleStep (v : Word) : (s.setPc v).singleStep = s.singleStep := rfl
@[simp] theorem setPc_mem (v : Word) : (s.setPc v).mem = s.mem := rfl
@[simp] theorem setPc_programLength (v : Word) : (s.setPc v).programLength = s.programLength := rfl
@[simp] theorem setPc_pix (v : Word) : (s.setPc v).pix = s.pix := rfl
@[simp] theorem setPc_status (v : Word) : (s.setPc v).status = s.status := rfl
@[simp] theorem setPc_cpuClock (v : Word) : (s.setPc v).cpuClock = s.cpuClock := rfl
@[simp] theorem setPc_timerClock (v : Word) : (s.setPc v).timerClock = s.timerClock := rfl
@[simp] theorem setPc_env (v : Word) : (s.setPc v).env = s.env := rfl
@[simp] theorem setPc_schedule (v : Word) : (s.setPc v).schedule = s.schedule := rfl
@[simp] theorem setPc_readV (v : Word) (r : Reg) : (s.setPc v).readV r = s.readV r := rfl
@[simp] theorem setPc_readStack (v : Word) (k : Nat) : (s.setPc v).readStack k = s.readStack k := rfl

/-! ### setSp -/

@[simp] theorem setSp_V (v : Byte) : (s.setSp v).V = s.V := rfl
@[simp] theorem setSp_I (v : Byte) : (s.setSp v).I = s.I := rfl
@[simp] theorem setSp_dt (v : Byte) : (s.setSp v).dt = s.dt := rfl
@[simp] theorem setSp_st (v : Byte) : (s.setSp v).st = s.st := rfl
@[simp] theorem setSp_pc (v : Byte) : (s.setSp v).pc = s.pc := rfl
@[simp] theorem setSp_sp (v : Byte) : (s.setSp v).sp = v := rfl
@[simp] theorem setSp_stack (v : Byte) : (s.setSp v).stack = s.stack := rfl
@[simp] theorem setSp_opcode (v : Byte) : (s.setSp v).opcode = s.opcode := rfl
@[simp] theorem setSp_paused (v : Byte) : (s.setSp v).paused = s.paused := rfl
@[simp] theorem setSp_singleStep (v : Byte) : (s.setSp v).singleStep = s.singleStep := rfl
@[simp] theorem setSp_mem (v : Byte) : (s.setSp v).mem = s.mem := rfl
@[simp] theorem setSp_programLength (v : Byte) : (s.setSp v).programLength = s.programLength := rfl
@[simp] theorem setSp_pix (v : Byte) : (s.setSp v).pix = s.pix := rfl
@[simp] theorem setSp_status (v : Byte) : (s.setSp v).status = s.status := rfl
@[simp] theorem setSp_cpuClock (v : Byte) : (s.setSp v).cpuClock = s.cpuClock := rfl
@[simp] theorem setSp_timerClock (v : Byte) : (s.setSp v).timerClock = s.timerClock := rfl
@[simp] theorem setSp_env (v : Byte) : (s.setSp v).env = s.env := rfl
@[simp] theorem setSp_schedule (v : Byte) : (s.setSp v).schedule = s.schedule := rfl
@[simp] theorem setSp_readV (v : Byte) (r : Reg) : (s.setSp v).readV r = s.readV r := rfl
@[simp] theorem setSp_readStack (v : Byte) (k : Nat) : (s.setSp v).readStack k = s.readStack k := rfl

/-! ### writeStack -/

@[simp] theorem writeStack_V (i : Nat) (v : Word) : (s.writeStack i v).V = s.V := rfl
@[simp] theorem writeStack_I (i : Nat) (v : Word) : (s.writeStack i v).I = s.I := rfl
@[simp] theorem writeStack_dt (i : Nat) (v : Word) : (s.writeStack i v).dt = s.dt := rfl
@[simp] theorem writeStack_st (i : Nat) (v : Word) : (s.writeStack i v).st = s.st := rfl
@[simp] theorem writeStack_pc (i : Nat) (v : Word) : (s.writeStack i v).pc = s.pc := rfl
@[simp] theorem writeStack_sp (i : Nat) (v : Word) : (s.writeStack i v).sp = s.sp := rfl
@[simp] theorem writeStack_stack (i : Nat) (v : Word) : (s.writeStack i v).stack = s.stack.setIfInBounds i v := rfl
@[simp] theorem writeStack_opcode (i : Nat) (v : Word) : (s.writeStack i v).opcode = s.opcode := rfl
@[simp] theorem writeStack_paused (i : Nat) (v : Word) : (s.writeStack i v).paused = s.paused := rfl
@[simp] theorem writeStack_singleStep (i : Nat) (v : Word) : (s.writeStack i v).singleStep = s.singleStep := rfl
@[simp] theorem writeStack_mem (i : Nat) (v : Word) : (s.writeStack i v).mem = s.mem := rfl
@[simp] theorem writeStack_programLength (i : Nat) (v : Word) : (s.writeStack i v).programLength = s.programLength := rfl
@[simp] theorem writeStack_pix (i : Nat) (v : Word) : (s.writeStack i v).pix = s.pix := rfl
@[simp] theorem writeStack_status (i : Nat) (v : Word) : (s.writeStack i v).status = s.status := rfl
@[simp] theorem writeStack_cpuClock (i : Nat) (v : Word) : (s.writeStack i v).cpuClock = s.cpuClock := rfl
@[simp] theorem writeStack_timerClock (i : Nat) (v : Word) : (s.writeStack i v).timerClock = s.timerClock := rfl
@[simp] theorem writeStack_env (i : Nat) (v : Word) : (s.writeStack i v).env = s.env := rfl
@[simp] theorem writeStack_schedule (i : Nat) (v : Word) : (s.writeStack i v).schedule = s.schedule := rfl
@[simp] theorem writeStack_readV (i : Nat) (v : Word) (r : Reg) : (s.writeStack i v).readV r = s.readV r := rfl

/-! ### setOpcode -/

@[simp] theorem setOpcode_V (v : Word) : (s.setOpcode v).V = s.V := rfl
@[simp] theorem setOpcode_I (v : Word) : (s.setOpcode v).I = s.I := rfl
@[simp] theorem setOpcode_dt (v : Word) : (s.setOpcode v).dt = s.dt := rfl
@[simp] theorem setOpcode_st (v : Word) : (s.setOpcode v).st = s.st := rfl
@[simp] theorem setOpcode_pc (v : Word) : (s.setOpcode v).pc = s.pc := rfl
@[simp] theorem setOpcode_sp (v : Word) : (s.setOpcode v).sp = s.sp := rfl
@[simp] theorem setOpcode_stack (v : Word) : (s.setOpcode v).stack = s.stack := rfl
@[simp] theorem setOpcode_opcode (v : Word) : (s.setOpcode v).opcode = v := rfl
@[simp] theorem setOpcode_paused (v : Word) : (s.setOpcode v).paused = s.paused := rfl
@[simp] theorem setOpcode_singleStep (v : Word) : (s.setOpcode v).singleStep = s.singleStep := rfl
@[simp] theorem setOpcode_mem (v : Word) : (s.setOpcode v).mem = s.mem := rfl
@[simp] theorem setOpcode_programLength (v : Word) : (s.setOpcode v).programLength = s.programLength := rfl
@[simp] theorem setOpcode_pix (v : Word) : (s.setOpcode v).pix = s.pix := rfl
@[simp] theorem setOpcode_status (v : Word) : (s.setOpcode v).status = s.status := rfl
@[simp] theorem setOpcode_cpuClock (v : Word) : (s.setOpcode v).cpuClock = s.cpuClock := rfl
@[simp] theorem setOpcode_timerClock (v : Word) : (s.setOpcode v).timerClock = s.timerClock := rfl
@[simp] theorem setOpcode_env (v : Word) : (s.setOpcode v).env = s.env := rfl
@[simp] theorem setOpcode_schedule (v : Word) : (s.setOpcode v).schedule = s.schedule := rfl
@[simp] theorem setOpcode_readV (v : Word) (r : Reg) : (s.setOpcode v).readV r = s.readV r := rfl
@[simp] theorem setOpcode_readStack (v : Word) (k : Nat) : (s.setOpcode v).readStack k = s.readStack k := rfl

/-! ### setSingleStepFlag -/

@[simp] theorem setSingleStepFlag_V (v : Bool) : (s.setSingleStepFlag v).V = s.V := rfl
@[simp] theorem setSingleStepFlag_I (v : Bool) : (s.setSingleStepFlag v).I = s.I := rfl
@[simp] theorem setSingleStepFlag_dt (v : Bool) : (s.setSingleStepFlag v).dt = s.dt := rfl
@[simp] theorem setSingleStepFlag_st (v : Bool) : (s.setSingleStepFlag v).st = s.st := rfl
@[simp] theorem setSingleStepFlag_pc (v : Bool) : (s.setSingleStepFlag v).pc = s.pc := rfl
@[simp] theorem setSingleStepFlag_sp (v : Bool) : (s.setSingleStepFlag v).sp = s.sp := rfl
@[simp] theorem setSingleStepFlag_stack (v : Bool) : (s.setSingleStepFlag v).stack = s.stack := rfl
@[simp] theorem setSingleStepFlag_opcode (v : Bool) : (s.setSingleStepFlag v).opcode = s.opcode := rfl
@[simp] theorem setSingleStepFlag_paused (v : Bool) : (s.setSingleStepFlag v).paused = s.paused := rfl
@[simp] theorem setSingleStepFlag_singleStep (v : Bool) : (s.setSingleStepFlag v).singleStep = v := rfl
@[simp] theorem setSingleStepFlag_mem (v : Bool) : (s.setSingleStepFlag v).mem = s.mem := rfl
@[simp] theorem setSingleStepFlag_programLength (v : Bool) : (s.setSingleStepFlag v).programLength = s.programLength := rfl
@[simp] theorem setSingleStepFlag_pix (v : Bool) : (s.setSingleStepFlag v).pix = s.pix := rfl
@[simp] theorem setSingleStepFlag_status (v : Bool) : (s.setSingleStepFlag v).status = s.status := rfl
@[simp] theorem setSingleStepFlag_cpuClock (v : Bool) : (s.setSingleStepFlag v).cpuClock = s.cpuClock := rfl
@[simp] theorem setSingleStepFlag_timerClock (v : Bool) : (s.setSingleStepFlag v).timerClock = s.timerClock := rfl
@[simp] theorem setSingleStepFlag_env (v : Bool) : (s.setSingleStepFlag v).env = s.env := rfl
@[simp] theorem setSingleStepFlag_schedule (v : Bool) : (s.setSingleStepFlag v).schedule = s.schedule := rfl
@[simp] theorem setSingleStepFlag_readV (v : Bool) (r : Reg) : (s.setSingleStepFlag v).readV r = s.readV r := rfl
@[simp] theorem setSingleStepFlag_readStack (v : Bool) (k : Nat) : (s.setSingleStepFlag v).readStack k = s.readStack k := rfl

/-! ### setMem -/

@[simp] theorem setMem_V (m : Memory) : (s.setMem m).V = s.V := rfl
@[simp] theorem setMem_I (m : Memory) : (s.setMem m).I = s.I := rfl
@[simp] theorem setMem_dt (m : Memory) : (s.setMem m).dt = s.dt := rfl
@[simp] theorem setMem_st (m : Memory) : (s.setMem m).st = s.st := rfl
@[simp] theorem setMem_pc (m : Memory) : (s.setMem m).pc = s.pc := rfl
@[simp] theorem setMem_sp (m : Memory) : (s.setMem m).sp = s.sp := rfl
@[simp] theorem setMem_stack (m : Memory) : (s.setMem m).stack = s.stack := rfl
@[simp] theorem setMem_opcode (m : Memory) : (s.setMem m).opcode = s.opcode := rfl
@[simp] theorem setMem_paused (m : Memory) : (s.setMem m).paused = s.paused := rfl
@[simp] theorem setMem_singleStep (m : Memory) : (s.setMem m).singleStep = s.singleStep := rfl
@[simp] theorem setMem_mem (m : Memory) : (s.setMem m).mem = m := rfl
@[simp] theorem setMem_programLength (m : Memory) : (s.setMem m).programLength = s.programLength := rfl
@[simp] theorem setMem_pix (m : Memory) : (s.setMem m).pix = s.pix := rfl
@[simp] theorem setMem_status (m : Memory) : (s.setMem m).status = s.status := rfl
@[simp] theorem setMem_cpuClock (m : Memory) : (s.setMem m).cpuClock = s.cpuClock := rfl
@[simp] theorem setMem_timerClock (m : Memory) : (s.setMem m).timerClock = s.timerClock := rfl
@[simp] theorem setMem_env (m : Memory) : (s.setMem m).env = s.env := rfl
@[simp] theorem setMem_schedule (m : Memory) : (s.setMem m).schedule = s.schedule := rfl
@[simp] theorem setMem_readV (m : Memory) (r : Reg) : (s.setMem m).readV r = s.readV r := rfl
@[simp] theorem setMem_readStack (m : Memory) (k : Nat) : (s.setMem m).readStack k = s.readStack k := rfl

/-! ### setPix -/

@[simp] theorem setPix_V (g : Grid) : (s.setPix g).V = s.V := rfl
@[simp] theorem setPix_I (g : Grid) : (s.setPix g).I = s.I := rfl
@[simp] theorem setPix_dt (g : Grid) : (s.setPix g).dt = s.dt := rfl
@[simp] theorem setPix_st (g : Grid) : (s.setPix g).st = s.st := rfl
@[simp] theorem setPix_pc (g : Grid) : (s.setPix g).pc = s.pc := rfl
@[simp] theorem setPix_sp (g : Grid) : (s.setPix g).sp = s.sp := rfl
@[simp] theorem setPix_stack (g : Grid) : (s.setPix g).stack = s.stack := rfl
@[simp] theorem setPix_opcode (g : Grid) : (s.setPix g).opcode = s.opcode := rfl
@[simp] theorem setPix_paused (g : Grid) : (s.setPix g).paused = s.paused := rfl
@[simp] theorem setPix_singleStep (g : Grid) : (s.setPix g).singleStep = s.singleStep := rfl
@[simp] theorem setPix_mem (g : Grid) : (s.setPix g).mem = s.mem := rfl
@[simp] theorem setPix_programLength (g : Grid) : (s.setPix g).programLength = s.programLength := rfl
@[simp] theorem setPix_pix (g : Grid) : (s.setPix g).pix = g := rfl
@[simp] theorem setPix_status (g : Grid) : (s.setPix g).status = s.status := rfl
@[simp] theorem setPix_cpuClock (g : Grid) : (s.setPix g).cpuClock = s.cpuClock := rfl
@[simp] theorem setPix_timerClock (g : Grid) : (s.setPix g).timerClock = s.timerClock := rfl
@[simp] theorem setPix_env (g : Grid) : (s.setPix g).env = s.env := rfl
@[simp] theorem setPix_schedule (g : Grid) : (s.setPix g).schedule = s.schedule := rfl
@[simp] theorem setPix_readV (g : Grid) (r : Reg) : (s.setPix g).readV r = s.readV r := rfl
@[simp] theorem setPix_readStack (g : Grid) (k : Nat) : (s.setPix g).readStack k = s.readStack k := rfl

/-! ### setStatus -/

@[simp] theorem setStatus_V (v : RunStatus) : (s.setStatus v).V = s.V := rfl
@[simp] theorem setStatus_I (v : RunStatus) : (s.setStatus v).I = s.I := rfl
@[simp] theorem setStatus_dt (v : RunStatus) : (s.setStatus v).dt = s.dt := rfl
@[simp] theorem setStatus_st (v : RunStatus) : (s.setStatus v).st = s.st := rfl
@[simp] theorem setStatus_pc (v : RunStatus) : (s.setStatus v).pc = s.pc := rfl
@[simp] theorem setStatus_sp (v : RunStatus) : (s.setStatus v).sp = s.sp := rfl
@[simp] theorem setStatus_stack (v : RunStatus) : (s.setStatus v).stack = s.stack := rfl
@[simp] theorem setStatus_opcode (v : RunStatus) : (s.setStatus v).opcode = s.opcode := rfl
@[simp] theorem setStatus_paused (v : RunStatus) : (s.setStatus v).paused = s.paused := rfl
@[simp] theorem setStatus_singleStep (v : RunStatus) : (s.setStatus v).singleStep = s.singleStep := rfl
@[simp] theorem setStatus_mem (v : RunStatus) : (s.setStatus v).mem = s.mem := rfl
@[simp] theorem setStatus_programLength (v : RunStatus) : (s.setStatus v).programLength = s.programLength := rfl
@[simp] theorem setStatus_pix (v : RunStatus) : (s.setStatus v).pix = s.pix := rfl
@[simp] theorem setStatus_status (v : RunStatus) : (s.setStatus v).status = v := rfl
@[simp] theorem setStatus_cpuClock (v : RunStatus) : (s.setStatus v).cpuClock = s.cpuClock := rfl
@[simp] theorem setStatus_timerClock (v : RunStatus) : (s.setStatus v).timerClock = s.timerClock := rfl
@[simp] theorem setStatus_env (v : RunStatus) : (s.setStatus v).env = s.env := rfl
@[simp] theorem setStatus_schedule (v : RunStatus) : (s.setStatus v).schedule = s.schedule := rfl
@[simp] theorem setStatus_readV (v : RunStatus) (r : Reg) : (s.setStatus v).readV r = s.readV r := rfl
@[simp] theorem setStatus_readStack (v : RunStatus) (k : Nat) : (s.setStatus v).readStack k = s.readStack k := rfl

/-! ### setEnv -/

@[simp] theorem setEnv_V (e : Env) : (s.setEnv e).V = s.V := rfl
@[simp] theorem setEnv_I (e : Env) : (s.setEnv e).I = s.I := rfl
@[simp] theorem setEnv_dt (e : Env) : (s.setEnv e).dt = s.dt := rfl
@[simp] theorem setEnv_st (e : Env) : (s.setEnv e).st = s.st := rfl
@[simp] theorem setEnv_pc (e : Env) : (s.setEnv e).pc = s.pc := rfl
@[simp] theorem setEnv_sp (e : Env) : (s.setEnv e).sp = s.sp := rfl
@[simp] theorem setEnv_stack (e : Env) : (s.setEnv e).stack = s.stack := rfl
@[simp] theorem setEnv_opcode (e : Env) : (s.setEnv e).opcode = s.opcode := rfl
@[simp] theorem setEnv_paused (e : Env) : (s.setEnv e).paused = s.paused := rfl
@[simp] theorem setEnv_singleStep (e : Env) : (s.setEnv e).singleStep = s.singleStep := rfl
@[simp] theorem setEnv_mem (e : Env) : (s.setEnv e).mem = s.mem := rfl
@[simp] theorem setEnv_programLength (e : Env) : (s.setEnv e).programLength = s.programLength := rfl
@[simp] theorem setEnv_pix (e : Env) : (s.setEnv e).pix = s.pix := rfl
@[simp] theorem setEnv_status (e : Env) : (s.setEnv e).status = s.status := rfl
@[simp] theorem setEnv_cpuClock (e : Env) : (s.setEnv e).cpuClock = s.cpuClock := rfl
@[simp] theorem setEnv_timerClock (e : Env) : (s.setEnv e).timerClock = s.timerClock := rfl
@[simp] theorem setEnv_env (e : Env) : (s.setEnv e).env = e := rfl
@[simp] theorem setEnv_schedule (e : Env) : (s.setEnv e).schedule = s.schedule := rfl
@[simp] theorem setEnv_readV (e : Env) (r : Reg) : (s.setEnv e).readV r = s.readV r := rfl
@[simp] theorem setEnv_readStack (e : Env) (k : Nat) : (s.setEnv e).readStack k = s.readStack k := rfl

/-! ### advance -/

@[simp] theorem advance_V : s.advance.V = s.V := rfl
@[simp] theorem advance_I : s.advance.I = s.I := rfl
@[simp] theorem advance_dt : s.advance.dt = s.dt := rfl
@[simp] theorem advance_st : s.advance.st = s.st := rfl
@[simp] theorem advance_pc : s.advance.pc = s.pc + 2 := rfl
@[simp] theorem advance_sp : s.advance.sp = s.sp := rfl
@[simp] theorem advance_stack : s.advance.stack = s.stack := rfl
@[simp] theorem advance_opcode : s.advance.opcode = s.opcode := rfl
@[simp] theorem advance_paused : s.advance.paused = s.paused := rfl
@[simp] theorem advance_singleStep : s.advance.singleStep = s.singleStep := rfl
@[simp] theorem advance_mem : s.advance.mem = s.mem := rfl
@[simp] theorem advance_programLength : s.advance.programLength = s.programLength := rfl
@[simp] theorem advance_pix : s.advance.pix = s.pix := rfl
@[simp] theorem advance_status : s.advance.status = s.status := rfl
@[simp] theorem advance_cpuClock : s.advance.cpuClock = s.cpuClock := rfl
@[simp] theorem advance_timerClock : s.advance.timerClock = s.timerClock := rfl
@[simp] theorem advance_env : s.advance.env = s.env := rfl
@[simp] theorem advance_schedule : s.advance.schedule = s.schedule := rfl
@[simp] theorem advance_readV (r : Reg) : s.advance.readV r = s.readV r := rfl
@[simp] theorem advance_readStack (k : Nat) : s.advance.readStack k = s.readStack k := rfl

/-! ### skip -/

@[simp] theorem skip_V : s.skip.V = s.V := rfl
@[simp] theorem skip_I : s.skip.I = s.I := rfl
@[simp] theorem skip_dt : s.skip.dt = s.dt := rfl
@[simp] theorem skip_st : s.skip.st = s.st := rfl
@[simp] theorem skip_pc : s.skip.pc = s.pc + 4 := rfl
@[simp] theorem skip_sp : s.skip.sp = s.sp := rfl
@[simp] theorem skip_stack : s.skip.stack = s.stack := rfl
@[simp] theorem skip_opcode : s.skip.opcode = s.opcode := rfl
@[simp] theorem skip_paused : s.skip.paused = s.paused := rfl
@[simp] theorem skip_singleStep : s.skip.singleStep = s.singleStep := rfl
@[simp] theorem skip_mem : s.skip.mem = s.mem := rfl
@[simp] theorem skip_programLength : s.skip.programLength = s.programLength := rfl
@[simp] theorem skip_pix : s.skip.pix = s.pix := rfl
@[simp] theorem skip_status : s.skip.status = s.status := rfl
@[simp] theorem skip_cpuClock : s.skip.cpuClock = s.cpuClock := rfl
@[simp] theorem skip_timerClock : s.skip.timerClock = s.timerClock := rfl
@[simp] theorem skip_env : s.skip.env = s.env := rfl
@[simp] theorem skip_schedule : s.skip.schedule = s.schedule := rfl
@[simp] theorem skip_readV (r : Reg) : s.skip.readV r = s.readV r := rfl
@[simp] theorem skip_readStack (k : Nat) : s.skip.readStack k = s.readStack k := rfl

/-! ### raise -/

@[simp] theorem raise_V (f : FaultCause) : (s.raise f).V = s.V := rfl
@[simp] theorem raise_I (f : FaultCause) : (s.raise f).I = s.I := rfl
@[simp] theorem raise_dt (f : FaultCause) : (s.raise f).dt = s.dt := rfl
@[simp] theorem raise_st (f : FaultCause) : (s.raise f).st = s.st := rfl
@[simp] theorem raise_pc (f : FaultCause) : (s.raise f).pc = s.pc := rfl
@[simp] theorem raise_sp (f : FaultCause) : (s.raise f).sp = s.sp := rfl
@[simp] theorem raise_stack (f : FaultCause) : (s.raise f).stack = s.stack := rfl
@[simp] theorem raise_opcode (f : FaultCause) : (s.raise f).opcode = s.opcode := rfl
@[simp] theorem raise_paused (f : FaultCause) : (s.raise f).paused = s.paused := rfl
@[simp] theorem raise_singleStep (f : FaultCause) : (s.raise f).singleStep = s.singleStep := rfl
@[simp] theorem raise_mem (f : FaultCause) : (s.raise f).mem = s.mem := rfl
@[simp] theorem raise_programLength (f : FaultCause) : (s.raise f).programLength = s.programLength := rfl
@[simp] theorem raise_pix (f : FaultCause) : (s.raise f).pix = s.pix := rfl
@[simp] theorem raise_status (f : FaultCause) : (s.raise f).status = .faulted f := rfl
@[simp] theorem raise_cpuClock (f : FaultCause) : (s.raise f).cpuClock = s.cpuClock := rfl
@[simp] theorem raise_timerClock (f : FaultCause) : (s.raise f).timerClock = s.timerClock := rfl
@[simp] theorem raise_env (f : FaultCause) : (s.raise f).env = s.env := rfl
@[simp] theorem raise_schedule (f : FaultCause) : (s.raise f).schedule = s.schedule := rfl
@[simp] theorem raise_readV (f : FaultCause) (r : Reg) : (s.raise f).readV r = s.readV r := rfl
@[simp] theorem raise_readStack (f : FaultCause) (k : Nat) : (s.raise f).readStack k = s.readStack k := rfl

/-! ### Registers and stack entries -/

theorem readV_writeV (i r : Reg) (v : Byte) :
    (s.writeV i v).readV r = if r = i then v else s.readV r := by
  simp only [State.readV, State.writeV, Fin.getElem_fin, Vector.getElem_set]
  by_cases h : i = r
  · simp [h]
  · simp [h, Fin.val_inj, Ne.symm h]

@[simp] theorem readV_writeV_same (i : Reg) (v : Byte) : (s.writeV i v).readV i = v := by
  simp [readV_writeV]

@[simp] theorem readV_writeV_of_ne {i r : Reg} (h : r ≠ i) (v : Byte) :
    (s.writeV i v).readV r = s.readV r := by
  simp [readV_writeV, h]

theorem readV_writeResultAndFlag (x r : Reg) (v : Byte) (f : Bool) :
    (s.writeResultAndFlag x v f).readV r =
      if r = regF then flagByte f else if r = x then v else s.readV r := by
  simp [State.writeResultAndFlag, readV_writeV]

theorem readStack_writeStack {i : Nat} (hi : i < 16) (k : Nat) (v : Word) :
    (s.writeStack i v).readStack k = if k = i then v else s.readStack k := by
  unfold State.readStack State.writeStack
  by_cases hk : k < 16
  · by_cases h : i = k
    · simp [hk, h]
    · simp [hk, h, Ne.symm h]
  · have : k ≠ i := by omega
    simp [hk, this]

/-- Two states with the same registers read by every number have the same register file. -/
theorem registers_ext {s t : State} (h : ∀ r, t.readV r = s.readV r) : t.V = s.V := by
  apply Vector.ext
  intro i hi
  exact h ⟨i, hi⟩

end Sys2Proof.Machine
end

