-- ==== Sys2Proof/Laws/Ops.lean ====
section
/-! SUPPORT. What each shared operation can do, said once: the display's primitive, the bounds-checked
accesses, the questions to the environment, and the register runs of `Fx55` and `Fx65`. -/

namespace Sys2Proof.Machine

/-! ### The grid -/

theorem Grid.get_toggle (g : Grid) (px py a b : Nat) :
    (g.toggle px py).get a b =
      if a = px ∧ b = py ∧ px < 64 ∧ py < 32 then !(g.get a b) else g.get a b := by
  unfold Grid.toggle
  by_cases h : px < 64 ∧ py < 32
  · rw [dif_pos h]
    by_cases hab : a < 64 ∧ b < 32
    · by_cases ha : px = a
      · subst ha
        by_cases hb : py = b
        · subst hb
          simp [Grid.get, h]
        · simp [Grid.get, h, hab, hb, Ne.symm hb]
      · simp [Grid.get, h, hab, ha, Ne.symm ha]
    · have : ¬(a = px ∧ b = py ∧ px < 64 ∧ py < 32) := by
        rintro ⟨rfl, rfl, h1, h2⟩
        exact hab ⟨h1, h2⟩
      simp [Grid.get, hab, this]
  · have : ¬(a = px ∧ b = py ∧ px < 64 ∧ py < 32) := fun hc => h hc.2.2
    rw [dif_neg h, if_neg this]

theorem Grid.get_outside (g : Grid) {a b : Nat} (h : ¬(a < 64 ∧ b < 32)) : g.get a b = false := by
  unfold Grid.get
  exact dif_neg h

@[simp] theorem Grid.get_clear (a b : Nat) : Grid.clear.get a b = false := by
  unfold Grid.get Grid.clear
  split <;> simp

theorem Grid.get_ofFn (f : Nat → Nat → Bool) {a b : Nat} (h : a < 64 ∧ b < 32) :
    (Grid.ofFn f).get a b = f a b := by
  unfold Grid.get Grid.ofFn
  rw [dif_pos h]
  simp

/-- Two grids with the same pixels are the same. -/
theorem Grid.ext_get {g g' : Grid} (h : ∀ a b, a < 64 → b < 32 → g.get a b = g'.get a b) :
    g = g' := by
  apply Vector.ext
  intro a ha
  apply Vector.ext
  intro b hb
  have := h a b ha hb
  unfold Grid.get at this
  rwa [dif_pos ⟨ha, hb⟩, dif_pos ⟨ha, hb⟩] at this

theorem onGrid_iff (px py : Nat) : onGrid px py = true ↔ px < 64 ∧ py < 32 := by
  unfold onGrid
  rw [Bool.and_eq_true, decide_eq_true_eq, decide_eq_true_eq]
  exact Iff.rfl

/-! ### Bounds-checked accesses (R64) -/

theorem addressOk_iff (a : Nat) : addressOk a = true ↔ a < 4096 := by
  unfold addressOk
  rw [decide_eq_true_eq]
  exact Iff.rfl

theorem memRead_ok {a : Nat} (h : a < 4096) (s : State) : memRead a s = .ok (s.mem.read a) := by
  unfold memRead
  rw [if_pos ((addressOk_iff a).2 h)]

theorem memRead_fault {a : Nat} (h : 4096 ≤ a) (s : State) :
    memRead a s = .error (.outOfBounds (.address a)) := by
  unfold memRead
  rw [if_neg (by rw [addressOk_iff]; omega)]

theorem memWrite_ok {a : Nat} (h : a < 4096) (v : Byte) (s : State) :
    memWrite a v s = .ok (s.setMem (s.mem.write a v)) := by
  unfold memWrite
  rw [if_pos ((addressOk_iff a).2 h)]

theorem memWrite_fault {a : Nat} (h : 4096 ≤ a) (v : Byte) (s : State) :
    memWrite a v s = .error (.outOfBounds (.address a), s) := by
  unfold memWrite
  rw [if_neg (by rw [addressOk_iff]; omega)]

/-! ### The environment (R41) -/

/-- A question for a random byte changes nothing but the environment. -/
theorem askRandomByte_cases (s : State) :
    (∃ b rest, s.env.randomBytes = b :: rest ∧
      s.askRandomByte = (b, s.setEnv { s.env with randomBytes := rest })) ∨
    (s.env.randomBytes = [] ∧
      s.askRandomByte =
        (Config.freeRandomByte s.env.asked, s.setEnv { s.env with asked := s.env.asked + 1 })) := by
  unfold State.askRandomByte
  cases h : s.env.randomBytes with
  | nil => exact .inr ⟨rfl, rfl⟩
  | cons b rest => exact .inl ⟨b, rest, rfl, rfl⟩

/-- A key query changes nothing but the environment. -/
theorem askKeyDown_cases (s : State) (k : Byte) :
    (∃ b rest, s.env.keyDowns = b :: rest ∧
      s.askKeyDown k = (b, s.setEnv { s.env with keyDowns := rest })) ∨
    (s.env.keyDowns = [] ∧
      s.askKeyDown k =
        (Config.freeKeyDown s.env.asked k, s.setEnv { s.env with asked := s.env.asked + 1 })) := by
  unfold State.askKeyDown
  cases h : s.env.keyDowns with
  | nil => exact .inr ⟨rfl, rfl⟩
  | cons b rest => exact .inl ⟨b, rest, rfl, rfl⟩

/-- A key wait changes nothing but the environment. -/
theorem askWaitKey_cases (s : State) :
    (∃ a rest, s.env.keyWaits = a :: rest ∧
      s.askWaitKey = (a, s.setEnv { s.env with keyWaits := rest })) ∨
    (s.env.keyWaits = [] ∧
      s.askWaitKey =
        (.key (Config.freeKey s.env.asked), s.setEnv { s.env with asked := s.env.asked + 1 })) := by
  unfold State.askWaitKey
  cases h : s.env.keyWaits with
  | nil => exact .inr ⟨rfl, rfl⟩
  | cons a rest => exact .inl ⟨a, rest, rfl, rfl⟩

/-- A question to the pixel sink changes nothing but the environment. -/
theorem askSink_cases (s : State) :
    (s.env.sinkFailsAfter = none ∧ s.askSink = (true, s)) ∨
    (s.env.sinkFailsAfter = some 0 ∧ s.askSink = (false, s)) ∨
    (∃ k, s.env.sinkFailsAfter = some (k + 1) ∧
      s.askSink = (true, s.setEnv { s.env with sinkFailsAfter := some k })) := by
  unfold State.askSink
  rcases h : s.env.sinkFailsAfter with _ | _ | k
  · exact .inl ⟨rfl, rfl⟩
  · exact .inr (.inl ⟨rfl, rfl⟩)
  · exact .inr (.inr ⟨k, rfl, rfl⟩)

/-! ### Register runs (R184, R185) -/

theorem mem_regRun (x r : Reg) : r ∈ regRun x ↔ r ≤ x := by
  revert x r
  decide

/-- A register run cut at register `k`. -/
theorem regRun_split (x k : Reg) (h : k ≤ x) :
    ∃ below above, regRun x = below ++ k :: above ∧ ∀ r, r ∈ below ↔ r < k := by
  refine ⟨(List.finRange 16).take k.val, (regRun x).drop (k.val + 1), ?_, ?_⟩
  · revert x k
    decide
  · clear h
    revert k
    decide

theorem regRun_sorted (x : Reg) : (regRun x).Pairwise (· < ·) := by
  revert x
  decide

/-- Where a register run is cut at `k`, every lower register stands before the cut. -/
theorem mem_below_of_regRun {x j k : Reg} {below above : List Reg}
    (h : regRun x = below ++ k :: above) (hj : j < k) : j ∈ below := by
  have sorted := regRun_sorted x
  have hk : k ≤ x := (mem_regRun x k).1 (by rw [h]; simp)
  have hm : j ∈ regRun x := (mem_regRun x j).2 (Fin.le_trans (Fin.le_of_lt hj) hk)
  rw [h] at sorted hm
  rcases List.mem_append.1 hm with hb | ha
  · exact hb
  · rcases List.mem_cons.1 ha with rfl | ha
    · exact absurd hj (Fin.lt_irrefl _)
    · have := (List.pairwise_cons.1 (List.pairwise_append.1 sorted).2.1).1 j ha
      exact absurd hj (Fin.not_lt.2 (Fin.le_of_lt this))

/-- The addresses of different registers of a run differ. -/
theorem indexAddr_inj (s : State) {i j : Nat} : indexAddr s i = indexAddr s j ↔ i = j := by
  unfold indexAddr
  omega

/-- What storing a list of registers whose addresses all exist does: each register at its address,
every other address as before, and nothing but memory. -/
theorem storeRegs_ok (l : List Reg) (s : State) (h : ∀ i ∈ l, indexAddr s i.val < 4096) :
    ∃ m, storeRegs l s = .ok (s.setMem m) ∧
      (∀ i ∈ l, m.read (indexAddr s i.val) = s.readV i) ∧
      (∀ a, (∀ i ∈ l, a ≠ indexAddr s i.val) → m.read a = s.mem.read a) ∧
      (s.mem.wf = true → m.wf = true) := by
  induction l generalizing s with
  | nil => exact ⟨s.mem, rfl, by simp, fun _ _ => rfl, id⟩
  | cons i rest ih =>
    have hi : indexAddr s i.val < 4096 := h i (by simp)
    obtain ⟨m, h1, h2, h3, h4⟩ :=
      ih (s.setMem (s.mem.write (indexAddr s i.val) (s.readV i)))
        (fun j hj => h j (by simp [hj]))
    refine ⟨m, ?_, ?_, ?_, ?_⟩
    · simp only [storeRegs]
      rw [if_neg (by simp only [Config.programEnd]; omega), memWrite_ok hi]
      exact h1
    · intro j hj
      by_cases hjr : j ∈ rest
      · exact h2 j hjr
      · have hji : j = i := by simpa [hjr] using hj
        subst hji
        have := h3 (indexAddr s j.val) fun k hk hc => hjr (by
          rwa [Fin.ext (((indexAddr_inj s).1 hc) : j.val = k.val)])
        simpa using this
    · intro a ha
      have := h3 a fun k hk => ha k (by simp [hk])
      rw [this]
      exact Memory.read_write_of_ne _ (ha i (by simp)) _
    · exact fun hw => h4 (Memory.wf_write hw hi _)

theorem storeRegs_append (l l' : List Reg) (s : State) :
    storeRegs (l ++ l') s = (storeRegs l s).bind (storeRegs l') := by
  induction l generalizing s with
  | nil => rfl
  | cons i rest ih =>
    simp only [List.cons_append, storeRegs]
    split
    · rfl
    · cases memWrite (indexAddr s i.val) (s.readV i) s with
      | error e => rfl
      | ok s1 => exact ih s1

/-- Storing stops at the first address that does not exist, with the registers before it stored. -/
theorem storeRegs_fault (below above : List Reg) (k : Reg) (s : State)
    (h : ∀ i ∈ below, indexAddr s i.val < 4096) (hk : 4096 ≤ indexAddr s k.val) :
    ∃ m, storeRegs (below ++ k :: above) s =
        .error (.outOfBounds (.address (indexAddr s k.val)), s.setMem m) ∧
      (∀ i ∈ below, m.read (indexAddr s i.val) = s.readV i) ∧
      (∀ a, (∀ i ∈ below, a ≠ indexAddr s i.val) → m.read a = s.mem.read a) ∧
      (s.mem.wf = true → m.wf = true) := by
  obtain ⟨m, h1, h2⟩ := storeRegs_ok below s h
  refine ⟨m, ?_, h2⟩
  rw [storeRegs_append, h1]
  change storeRegs (k :: above) (s.setMem m) = _
  have hk' : Config.programEnd ≤ indexAddr (s.setMem m) k.val := hk
  simp only [storeRegs]
  rw [if_pos hk']
  rfl

/-- What loading a list of registers whose addresses all exist does: each register from its address,
every other register as before, and nothing but the registers. -/
theorem loadRegs_ok (l : List Reg) (s : State) (h : ∀ i ∈ l, indexAddr s i.val < 4096) :
    ∃ t, loadRegs l s = .ok t ∧
      (∀ r, t.readV r = if r ∈ l then s.mem.read (indexAddr s r.val) else s.readV r) ∧
      { t with V := s.V } = s := by
  induction l generalizing s with
  | nil => exact ⟨s, rfl, by simp, rfl⟩
  | cons i rest ih =>
    have hi : indexAddr s i.val < 4096 := h i (by simp)
    obtain ⟨t, h1, h2, h3⟩ :=
      ih (s.writeV i (s.mem.read (indexAddr s i.val))) (fun j hj => h j (by simp [hj]))
    refine ⟨t, ?_, ?_, ?_⟩
    · simp only [loadRegs]
      rw [if_neg (by simp only [Config.programEnd]; omega), memRead_ok hi]
      exact h1
    · intro r
      rw [h2 r]
      by_cases hr : r ∈ rest
      · simp [hr, indexAddr]
      · by_cases hri : r = i
        · subst hri
          simp [hr]
        · simp [hr, hri]
    · have := congrArg (fun u : State => { u with V := s.V }) h3
      exact this

theorem loadRegs_append (l l' : List Reg) (s : State) :
    loadRegs (l ++ l') s = (loadRegs l s).bind (loadRegs l') := by
  induction l generalizing s with
  | nil => rfl
  | cons i rest ih =>
    simp only [List.cons_append, loadRegs]
    split
    · rfl
    · cases memRead (indexAddr s i.val) s with
      | error f => rfl
      | ok v => exact ih _

/-- Loading stops at the first address that does not exist, with the registers before it loaded. -/
theorem loadRegs_fault (below above : List Reg) (k : Reg) (s : State)
    (h : ∀ i ∈ below, indexAddr s i.val < 4096) (hk : 4096 ≤ indexAddr s k.val) :
    ∃ t, loadRegs (below ++ k :: above) s =
        .error (.outOfBounds (.address (indexAddr s k.val)), t) ∧
      (∀ r, t.readV r = if r ∈ below then s.mem.read (indexAddr s r.val) else s.readV r) ∧
      { t with V := s.V } = s := by
  obtain ⟨t, h1, h2, h3⟩ := loadRegs_ok below s h
  refine ⟨t, ?_, h2, h3⟩
  have hI : t.I = s.I := by
    have := congrArg State.I h3
    exact this
  have hk' : Config.programEnd ≤ indexAddr t k.val := by
    simpa [indexAddr, hI, Config.programEnd] using hk
  have he : indexAddr t k.val = indexAddr s k.val := by simp [indexAddr, hI]
  rw [loadRegs_append, h1]
  change loadRegs (k :: above) t = _
  simp only [loadRegs]
  rw [if_pos hk', he]

/-- What storing a list of registers can do, wherever the addresses lie: it stops at the first one that
does not exist (R184). -/
theorem storeRegs_cases (l : List Reg) (s : State) :
    ∃ m, (s.mem.wf = true → m.wf = true) ∧
      (storeRegs l s = .ok (s.setMem m) ∨
        ∃ below i above, l = below ++ i :: above ∧ (∀ j ∈ below, indexAddr s j.val < 4096) ∧
          4096 ≤ indexAddr s i.val ∧
          storeRegs l s = .error (.outOfBounds (.address (indexAddr s i.val)), s.setMem m)) := by
  induction l generalizing s with
  | nil => exact ⟨s.mem, id, .inl rfl⟩
  | cons i rest ih =>
    by_cases hi : indexAddr s i.val < 4096
    · have hstep : storeRegs (i :: rest) s =
          storeRegs rest (s.setMem (s.mem.write (indexAddr s i.val) (s.readV i))) := by
        simp only [storeRegs]
        rw [if_neg (by simp only [Config.programEnd]; omega), memWrite_ok hi]
      obtain ⟨m, h1, h2⟩ := ih (s.setMem (s.mem.write (indexAddr s i.val) (s.readV i)))
      refine ⟨m, fun hw => h1 (Memory.wf_write hw hi _), ?_⟩
      rw [hstep]
      rcases h2 with h2 | ⟨below, j, above, rfl, hlow, hb, h2⟩
      · exact .inl h2
      · exact .inr ⟨i :: below, j, above, rfl, List.forall_mem_cons.2 ⟨hi, hlow⟩, hb, h2⟩
    · refine ⟨s.mem, id, .inr ⟨[], i, rest, rfl, by simp, by omega, ?_⟩⟩
      simp only [storeRegs]
      rw [if_pos (by simp only [Config.programEnd]; omega)]
      rfl

/-- What loading a list of registers can do, wherever the addresses lie: it stops at the first one that
does not exist (R185). -/
theorem loadRegs_cases (l : List Reg) (s : State) :
    ∃ t, (∀ r, r ∉ l → t.readV r = s.readV r) ∧ { t with V := s.V } = s ∧
      (loadRegs l s = .ok t ∨
        ∃ below i above, l = below ++ i :: above ∧ (∀ j ∈ below, indexAddr s j.val < 4096) ∧
          4096 ≤ indexAddr s i.val ∧
          loadRegs l s = .error (.outOfBounds (.address (indexAddr s i.val)), t)) := by
  induction l generalizing s with
  | nil => exact ⟨s, fun _ _ => rfl, rfl, .inl rfl⟩
  | cons i rest ih =>
    by_cases hi : indexAddr s i.val < 4096
    · have hstep : loadRegs (i :: rest) s =
          loadRegs rest (s.writeV i (s.mem.read (indexAddr s i.val))) := by
        simp only [loadRegs]
        rw [if_neg (by simp only [Config.programEnd]; omega), memRead_ok hi]
      obtain ⟨t, h1, h2, h3⟩ := ih (s.writeV i (s.mem.read (indexAddr s i.val)))
      refine ⟨t, fun r hr => ?_, ?_, ?_⟩
      · rw [h1 r (fun hc => hr (List.mem_cons_of_mem _ hc)), readV_writeV, if_neg]
        exact fun hc => hr (hc ▸ List.mem_cons_self)
      · have := congrArg (fun u : State => { u with V := s.V }) h2
        exact this
      · rw [hstep]
        rcases h3 with h3 | ⟨below, j, above, rfl, hlow, hb, h3⟩
        · exact .inl h3
        · exact .inr ⟨i :: below, j, above, rfl, List.forall_mem_cons.2 ⟨hi, hlow⟩, hb, h3⟩
    · refine ⟨s, fun _ _ => rfl, rfl, .inr ⟨[], i, rest, rfl, by simp, by omega, ?_⟩⟩
      simp only [loadRegs]
      rw [if_pos (by simp only [Config.programEnd]; omega)]

/-! ### Decimal digits (R183) -/

/-- What storing the three digits does where all three addresses exist. -/
theorem storeDigits_ok (v : Byte) (s : State) (h : indexAddr s 2 < 4096) :
    storeDigits v s = .ok (s.setMem
      (((s.mem.write (indexAddr s 0) (decimalDigits v).1).write
        (indexAddr s 1) (decimalDigits v).2.1).write (indexAddr s 2) (decimalDigits v).2.2)) := by
  have h0 : indexAddr s 0 < 4096 := by unfold indexAddr at *; omega
  have h1 : indexAddr s 1 < 4096 := by unfold indexAddr at *; omega
  simp only [storeDigits]
  rw [memWrite_ok h0]
  simp only
  rw [memWrite_ok h1]
  simp only
  rw [memWrite_ok h]
  rfl

end Sys2Proof.Machine
end

