-- ==== Sys2Proof/Laws/Display.lean ====
section
/-! SUPPORT. The XOR-write engine said once: drawing a sprite is drawing the list of pixels it covers,
and what drawing a list of pixels does (43_display.md R202 to R207). -/

namespace Sys2Proof.Machine

/-- Draw a list of pixels in order. -/
def drawPixels : List (Nat × Nat) → State → Progress
  | [], s => .ok s
  | p :: rest, s =>
    match drawBit p.1 p.2 s with
    | .error e => .error e
    | .ok s1 => drawPixels rest s1

theorem drawPixels_append (ps qs : List (Nat × Nat)) (s : State) :
    drawPixels (ps ++ qs) s = (drawPixels ps s).bind (drawPixels qs) := by
  induction ps generalizing s with
  | nil => rfl
  | cons p rest ih =>
    simp only [List.cons_append, drawPixels]
    cases drawBit p.1 p.2 s with
    | error e => rfl
    | ok s1 => exact ih s1

theorem drawRow_eq_drawPixels (x0 y : Nat) (byte : Byte) (bits : List Nat) (s : State) :
    drawRow x0 y byte bits s =
      drawPixels (bits.filterMap fun i =>
        if byte.getLsbD (7 - i) then some (x0 + i, y) else none) s := by
  induction bits generalizing s with
  | nil => rfl
  | cons i rest ih =>
    by_cases h : byte.getLsbD (7 - i) = true
    · simp only [drawRow, List.filterMap_cons, h, if_true, drawPixels]
      cases drawBit (x0 + i) y s with
      | error e => rfl
      | ok s1 => exact ih s1
    · simp only [drawRow, List.filterMap_cons, h, if_false, Bool.false_eq_true]
      exact ih s

/-- What a part of a draw leaves alone: everything but the registers, the pixels, the environment. -/
def DrawFrame (s t : State) : Prop :=
  { t with V := s.V, pix := s.pix, env := s.env } = s ∧ ∀ r, r ≠ regF → t.readV r = s.readV r

theorem DrawFrame.refl (s : State) : DrawFrame s s := ⟨rfl, fun _ _ => rfl⟩

theorem DrawFrame.trans {s t u : State} (h : DrawFrame s t) (h' : DrawFrame t u) :
    DrawFrame s u := by
  refine ⟨?_, fun r hr => (h'.2 r hr).trans (h.2 r hr)⟩
  have h1 := congrArg (fun v : State => { v with V := s.V, pix := s.pix, env := s.env }) h'.1
  exact h1.trans h.1

theorem DrawFrame.mem_eq {s t : State} (h : DrawFrame s t) : t.mem = s.mem := by
  have := congrArg State.mem h.1
  exact this

/-- What one set sprite bit can do (R202, R203, R204, R209). -/
theorem drawBit_cases (px py : Nat) (s : State) :
    (¬(px < 64 ∧ py < 32) ∧
      drawBit px py s = .error (.outOfBounds (.pixel px py), s)) ∨
    ((px < 64 ∧ py < 32) ∧ s.env.sinkFailsAfter = some 0 ∧
      drawBit px py s = .error (.subsystemError, s.setPix (s.pix.toggle px py))) ∨
    ((px < 64 ∧ py < 32) ∧ SinkAccepts s 1 ∧
      drawBit px py s = .ok (((s.setPix (s.pix.toggle px py)).setEnv (envAfterPixels s 1)).writeV
        regF (s.readV regF ||| flagByte (s.pix.get px py)))) := by
  unfold drawBit
  by_cases h : px < 64 ∧ py < 32
  · rw [if_pos ((onGrid_iff px py).2 h)]
    rcases askSink_cases (s.setPix (s.pix.toggle px py)) with ⟨h1, h2⟩ | ⟨h1, h2⟩ | ⟨k, h1, h2⟩
    · refine .inr (.inr ⟨h, ?_, ?_⟩)
      · intro b hb
        exact absurd (h1.symm.trans hb) (by simp)
      · have h1' : s.env.sinkFailsAfter = none := h1
        have he : envAfterPixels s 1 = s.env := by
          unfold envAfterPixels
          rw [h1']
          conv => rhs; rw [← show { s.env with sinkFailsAfter := none } = s.env by rw [← h1']]
          rfl
        rw [h2, he]
        rfl
    · refine .inr (.inl ⟨h, h1, ?_⟩)
      rw [h2]
    · refine .inr (.inr ⟨h, ?_, ?_⟩)
      · intro b hb
        have : some (k + 1) = some b := h1.symm.trans hb
        have := Option.some.inj this
        omega
      · have h1' : s.env.sinkFailsAfter = some (k + 1) := h1
        rw [h2]
        simp only [envAfterPixels, h1']
        rfl
  · rw [if_neg (fun hc => h ((onGrid_iff px py).1 hc))]
    exact .inl ⟨h, rfl⟩

theorem flagByte_or (a b : Bool) : flagByte a ||| flagByte b = flagByte (a || b) := by
  cases a <;> cases b <;> decide

theorem envAfterPixels_zero (s : State) : envAfterPixels s 0 = s.env := by
  unfold envAfterPixels
  cases h : s.env.sinkFailsAfter <;> simp [← h]

/-- What drawing a list of pixels without repeats does when all are on the grid and the sink accepts
them: each is flipped and nothing else, and `VF` collects whether one was lit before. -/
theorem drawPixels_ok (ps : List (Nat × Nat)) (s : State) (hg : AllOnGrid ps)
    (hs : SinkAccepts s ps.length) (hn : ps.Nodup) :
    ∃ t, drawPixels ps s = .ok t ∧
      (∀ a b, t.pix.get a b = (s.pix.get a b ^^ decide ((a, b) ∈ ps))) ∧
      t.readV regF =
        s.readV regF ||| flagByte (ps.any fun p => s.pix.get p.1 p.2) ∧
      t.env = envAfterPixels s ps.length ∧
      DrawFrame s t := by
  induction ps generalizing s with
  | nil =>
    exact ⟨s, rfl, by simp, by simp [flagByte], (envAfterPixels_zero s).symm, DrawFrame.refl s⟩
  | cons p rest ih =>
    obtain ⟨hp, hrest⟩ := List.nodup_cons.1 hn
    have hpg : p.1 < 64 ∧ p.2 < 32 := hg p (by simp)
    rcases drawBit_cases p.1 p.2 s with ⟨h1, _⟩ | ⟨_, h0, _⟩ | ⟨_, _, h2⟩
    · exact absurd hpg h1
    · have := hs 0 h0
      simp at this
    · have hs' : SinkAccepts (((s.setPix (s.pix.toggle p.1 p.2)).setEnv
          (envAfterPixels s 1)).writeV regF
            (s.readV regF ||| flagByte (s.pix.get p.1 p.2))) rest.length := by
        intro b hb
        have hb' : (s.env.sinkFailsAfter.map fun b => b - 1) = some b := hb
        cases hc : s.env.sinkFailsAfter with
        | none => simp [hc] at hb'
        | some c =>
          have := hs c hc
          simp only [hc, Option.map_some, Option.some.injEq] at hb'
          simp only [List.length_cons] at this
          omega
      obtain ⟨t, h3, h4, h5, h6, h7⟩ := ih _ (fun q hq => hg q (by simp [hq])) hs' hrest
      refine ⟨t, ?_, ?_, ?_, ?_, ?_⟩
      · simp only [drawPixels, h2]
        exact h3
      · intro a b
        rw [h4 a b]
        simp only [writeV_pix, setEnv_pix, setPix_pix, Grid.get_toggle]
        by_cases hab : (a, b) = p
        · have ha : a = p.1 := by rw [← hab]
          have hb : b = p.2 := by rw [← hab]
          have hnr : (a, b) ∉ rest := by rw [hab]; exact hp
          simp [ha, hb, hpg, hp]
        · have : ¬(a = p.1 ∧ b = p.2 ∧ p.1 < 64 ∧ p.2 < 32) := by
            rintro ⟨h8, h9, _⟩
            exact hab (by rw [h8, h9])
          simp [this, hab]
      · rw [h5]
        have hany : (rest.any fun q => (s.pix.toggle p.1 p.2).get q.1 q.2) =
            rest.any fun q => s.pix.get q.1 q.2 := by
          rw [Bool.eq_iff_iff, List.any_eq_true, List.any_eq_true]
          have hsame : ∀ q ∈ rest,
              (s.pix.toggle p.1 p.2).get q.1 q.2 = s.pix.get q.1 q.2 := by
            intro q hq
            have : ¬(q.1 = p.1 ∧ q.2 = p.2 ∧ p.1 < 64 ∧ p.2 < 32) := by
              rintro ⟨h8, h9, _⟩
              have hqp : q = p := Prod.ext h8 h9
              exact hp (hqp ▸ hq)
            simp [Grid.get_toggle, this]
          constructor <;> rintro ⟨q, hq, hl⟩ <;> exact ⟨q, hq, by simpa [hsame q hq] using hl⟩
        simp only [writeV_pix, setEnv_pix, setPix_pix, readV_writeV_same, hany, List.any_cons]
        rw [BitVec.or_assoc, flagByte_or]
      · rw [h6]
        simp only [envAfterPixels, writeV_env, setEnv_env, List.length_cons, Option.map_map]
        congr 2
        funext b
        simp only [Function.comp]
        omega
      · have h0 : DrawFrame s (((s.setPix (s.pix.toggle p.1 p.2)).setEnv
            (envAfterPixels s 1)).writeV regF
              (s.readV regF ||| flagByte (s.pix.get p.1 p.2))) :=
          ⟨rfl, fun r hr => by rw [readV_writeV, if_neg hr]; rfl⟩
        exact h0.trans h7

/-- A drawn list is drawn: the state after it, as claims say it. -/
theorem drawPixels_drawn (ps : List (Nat × Nat)) (s : State) (hg : AllOnGrid ps)
    (hs : SinkAccepts s ps.length) (hn : ps.Nodup) :
    ∃ t, drawPixels ps (s.writeV regF 0) = .ok t ∧ Drawn s t ps ∧ t.pc = s.pc := by
  obtain ⟨t, h1, h2, h3, h4, h5, h6⟩ := drawPixels_ok ps (s.writeV regF 0) hg hs hn
  have hpc : t.pc = s.pc := by
    have := congrArg State.pc h5
    exact this
  refine ⟨t, h1, ⟨h2, ?_, fun r hr => ?_, h4, ?_⟩, hpc⟩
  · have hv : t.readV regF = flagByte (ps.any fun p => s.pix.get p.1 p.2) := by
      rw [h3, readV_writeV_same]
      exact BitVec.zero_or
    have hl : SomeLit s.pix ps ↔ (ps.any fun p => s.pix.get p.1 p.2) = true := by
      rw [List.any_eq_true]; exact Iff.rfl
    by_cases h : (ps.any fun p => s.pix.get p.1 p.2) = true
    · exact .inl ⟨hl.2 h, by rw [hv, h]; rfl⟩
    · refine .inr ⟨fun hc => h (hl.1 hc), ?_⟩
      rw [hv, Bool.eq_false_iff.2 h]; rfl
  · rw [h6 r hr, readV_writeV, if_neg hr]
  · have := congrArg (fun v : State => { v with V := s.V, pix := s.pix, env := s.env, pc := s.pc }) h5
    exact this

/-- What drawing a list of pixels can do, whatever the pixels are and whatever the sink answers: it fails
only where the sink fails within the list, or at a pixel of the list off the grid. -/
theorem drawPixels_cases (ps : List (Nat × Nat)) (s : State) :
    (∃ t, drawPixels ps s = .ok t ∧ DrawFrame s t) ∨
    (∃ f t, drawPixels ps s = .error (f, t) ∧ DrawFrame s t ∧
      ((f = .subsystemError ∧ ∃ b, s.env.sinkFailsAfter = some b ∧ b < ps.length) ∨
        ∃ p ∈ ps, (63 < p.1 ∨ 31 < p.2) ∧ f = .outOfBounds (.pixel p.1 p.2))) := by
  induction ps generalizing s with
  | nil => exact .inl ⟨s, rfl, DrawFrame.refl s⟩
  | cons p rest ih =>
    rcases drawBit_cases p.1 p.2 s with ⟨hoff, h⟩ | ⟨_, h0, h⟩ | ⟨_, hs, h⟩
    · exact .inr ⟨.outOfBounds (.pixel p.1 p.2), s, by simp only [drawPixels, h],
        DrawFrame.refl s, .inr ⟨p, List.mem_cons_self, by omega, rfl⟩⟩
    · exact .inr ⟨.subsystemError, s.setPix (s.pix.toggle p.1 p.2), by simp only [drawPixels, h],
        ⟨rfl, fun _ _ => rfl⟩, .inl ⟨rfl, 0, h0, Nat.succ_pos _⟩⟩
    · generalize hu : ((s.setPix (s.pix.toggle p.1 p.2)).setEnv (envAfterPixels s 1)).writeV regF
        (s.readV regF ||| flagByte (s.pix.get p.1 p.2)) = u at h
      have h0 : DrawFrame s u := by
        subst hu
        exact ⟨rfl, fun r hr => by rw [readV_writeV, if_neg hr]; rfl⟩
      have henv : u.env.sinkFailsAfter = s.env.sinkFailsAfter.map fun b => b - 1 := by
        subst hu
        rfl
      simp only [drawPixels, h]
      rcases ih u with ⟨t, h1, h2⟩ | ⟨f, t, h1, h2, h3⟩
      · exact .inl ⟨t, h1, h0.trans h2⟩
      · refine .inr ⟨f, t, h1, h0.trans h2, ?_⟩
        rcases h3 with ⟨hf, b, hb, hlt⟩ | ⟨q, hq, h3⟩
        · obtain ⟨c, hc, hcb⟩ := Option.map_eq_some_iff.1 (henv.symm.trans hb)
          have := hs c hc
          exact .inl ⟨hf, c, hc, by simp only [List.length_cons]; omega⟩
        · exact .inr ⟨q, List.mem_cons_of_mem _ hq, h3⟩

theorem rowPixels_nodup (x0 y : Nat) (byte : Byte) : (rowPixels x0 y byte).Nodup := by
  refine List.Nodup.filterMap ?_ List.nodup_range
  intro i j p hi hj
  split at hi <;> split at hj <;> simp_all
  have : p = (x0 + i, y) := hi ▸ rfl
  rw [this] at hj
  have := congrArg Prod.fst hj
  simp at this
  omega

theorem rowPixels_row {x0 y : Nat} {byte : Byte} {p : Nat × Nat} (h : p ∈ rowPixels x0 y byte) :
    p.2 = y := by
  obtain ⟨i, _, hi⟩ := List.mem_filterMap.1 h
  split at hi
  · exact (congrArg Prod.snd (Option.some.inj hi)).symm
  · cases hi

theorem spritePixels_nodup (s : State) (x0 y0 base n : Nat) :
    (spritePixels s x0 y0 base n).Nodup := by
  refine List.nodup_flatMap.2 ⟨fun r _ => rowPixels_nodup _ _ _, ?_⟩
  refine List.Pairwise.imp ?_ (List.nodup_range (n := n))
  intro r r' hne p hp hp'
  have h1 := rowPixels_row hp
  have h2 := rowPixels_row hp'
  omega

/-- Which pixels a sprite covers (R203, R207). -/
theorem mem_spritePixels (s : State) (x0 y0 base n a b : Nat) :
    (a, b) ∈ spritePixels s x0 y0 base n ↔
      ∃ r < n, ∃ i < 8, (s.mem.read (base + r)).getLsbD (7 - i) = true ∧
        a = x0 + i ∧ b = y0 + r := by
  simp only [spritePixels, rowPixels, List.mem_flatMap, List.mem_filterMap, List.mem_range]
  constructor
  · rintro ⟨r, hr, i, hi, h⟩
    split at h
    · next hb =>
      have h := Option.some.inj h
      exact ⟨r, hr, i, hi, hb, (congrArg Prod.fst h).symm, (congrArg Prod.snd h).symm⟩
    · cases h
  · rintro ⟨r, hr, i, hi, hb, rfl, rfl⟩
    exact ⟨r, hr, i, hi, by rw [if_pos hb]⟩

theorem drawRows_append (x0 y0 base : Nat) (l l' : List Nat) (s : State) :
    drawRows x0 y0 base (l ++ l') s =
      (drawRows x0 y0 base l s).bind (drawRows x0 y0 base l') := by
  induction l generalizing s with
  | nil => rfl
  | cons r rest ih =>
    simp only [List.cons_append, drawRows]
    cases memRead (base + r) s with
    | error f => rfl
    | ok byte =>
      simp only
      cases drawRow x0 (y0 + r) byte (List.range 8) s with
      | error e => rfl
      | ok s1 => exact ih s1

/-- Where every sprite byte is readable, the rows draw the sprite's pixels. -/
theorem drawRows_eq_drawPixels (x0 y0 base : Nat) (rows : List Nat) (s : State)
    (h : ∀ r ∈ rows, base + r < 4096) :
    drawRows x0 y0 base rows s =
      drawPixels (rows.flatMap fun r => rowPixels x0 (y0 + r) (s.mem.read (base + r))) s := by
  induction rows generalizing s with
  | nil => rfl
  | cons r rest ih =>
    have hrest : ∀ q ∈ rest, base + q < 4096 := fun q hq => h q (by simp [hq])
    simp only [drawRows, memRead_ok (h r (by simp)), List.flatMap_cons, drawPixels_append]
    rw [drawRow_eq_drawPixels]
    rcases drawPixels_cases (rowPixels x0 (y0 + r) (s.mem.read (base + r))) s with
      ⟨t, h1, h2⟩ | ⟨f, t, h1, _, _⟩
    · unfold rowPixels at h1 ⊢
      rw [h1]
      simp only [Except.bind]
      rw [ih t hrest, h2.mem_eq]
      rfl
    · unfold rowPixels at h1 ⊢
      rw [h1]
      rfl

/-- The rows of a sprite, whatever the operands: the pixels of the rows that lie in memory are drawn, and
the first row beyond memory faults after them (R207, R283). -/
theorem drawRows_eq (x0 y0 base n : Nat) (s : State) :
    drawRows x0 y0 base (List.range n) s =
      (drawPixels (spritePixels s x0 y0 base (readableRows base n)) s).bind fun t =>
        if readableRows base n = n then .ok t
        else .error (.outOfBounds (.address (base + readableRows base n)), t) := by
  have hk : readableRows base n = n ∨
      (readableRows base n < n ∧ 4096 ≤ base + readableRows base n) := by
    unfold readableRows
    omega
  have hin : ∀ r ∈ List.range (readableRows base n), base + r < 4096 := by
    intro r hr
    rw [List.mem_range] at hr
    unfold readableRows at hr
    omega
  generalize readableRows base n = k at hk hin ⊢
  rcases hk with rfl | ⟨hlt, hout⟩
  · rw [drawRows_eq_drawPixels x0 y0 base _ s hin]
    change drawPixels (spritePixels s x0 y0 base k) s = _
    cases drawPixels (spritePixels s x0 y0 base k) s with
    | error e => rfl
    | ok t => exact (if_pos rfl).symm
  · obtain ⟨later, hsplit⟩ : ∃ later, List.range n = List.range k ++ k :: later := by
      obtain ⟨m, rfl⟩ : ∃ m, n = k + (m + 1) := ⟨n - k - 1, by omega⟩
      rw [List.range_add, List.range_succ_eq_map]
      exact ⟨_, rfl⟩
    rw [hsplit, drawRows_append, drawRows_eq_drawPixels x0 y0 base _ s hin]
    change (drawPixels (spritePixels s x0 y0 base k) s).bind _ = _
    congr 1
    funext t
    rw [if_neg (Nat.ne_of_lt hlt)]
    simp only [drawRows, memRead_fault hout]

/-- The pixels of the first rows of a sprite come first. -/
theorem spritePixels_prefix (s : State) (x0 y0 base : Nat) {k n : Nat} (h : k ≤ n) :
    spritePixels s x0 y0 base k <+: spritePixels s x0 y0 base n := by
  obtain ⟨m, rfl⟩ := Nat.exists_eq_add_of_le h
  unfold spritePixels
  rw [List.range_add, List.flatMap_append]
  exact List.prefix_append _ _

/-- What the rows of a sprite can do, whatever the operands and whatever the sink answers. -/
theorem drawRows_cases (x0 y0 base n : Nat) (s : State) :
    (∃ t, drawRows x0 y0 base (List.range n) s = .ok t ∧ DrawFrame s t) ∨
    (∃ f t, drawRows x0 y0 base (List.range n) s = .error (f, t) ∧ DrawFrame s t ∧
      ((f = .subsystemError ∧ ∃ b, s.env.sinkFailsAfter = some b ∧
          b < (spritePixels s x0 y0 base (readableRows base n)).length) ∨
        (readableRows base n < n ∧ f = .outOfBounds (.address (base + readableRows base n))) ∨
        ∃ p ∈ spritePixels s x0 y0 base (readableRows base n),
          (63 < p.1 ∨ 31 < p.2) ∧ f = .outOfBounds (.pixel p.1 p.2))) := by
  rw [drawRows_eq]
  rcases drawPixels_cases (spritePixels s x0 y0 base (readableRows base n)) s with
    ⟨t, h1, h2⟩ | ⟨f, t, h1, h2, h3⟩
  · by_cases hk : readableRows base n = n
    · exact .inl ⟨t, by rw [h1]; exact if_pos hk, h2⟩
    · have hlt : readableRows base n < n := Nat.lt_of_le_of_ne (Nat.min_le_left ..) hk
      exact .inr ⟨_, t, by rw [h1]; exact if_neg hk, h2, .inr (.inl ⟨hlt, rfl⟩)⟩
  · exact .inr ⟨f, t, by rw [h1]; rfl, h2, h3.imp_right .inr⟩

/-- `VF` holds 0 or 1. -/
def ZeroOrOne (s : State) : Prop := s.readV regF = 0x00 ∨ s.readV regF = 0x01

theorem ZeroOrOne.or_flag {s : State} (h : ZeroOrOne s) (b : Bool) :
    s.readV regF ||| flagByte b = 0x00 ∨ s.readV regF ||| flagByte b = 0x01 := by
  rcases h with h | h <;> rw [h] <;> cases b <;> decide

/-- Drawing pixels leaves 0 or 1 in `VF`, where a part of a draw is all that was done too. -/
theorem drawPixels_flag (ps : List (Nat × Nat)) (s : State) (h : ZeroOrOne s) :
    (∀ t, drawPixels ps s = .ok t → ZeroOrOne t) ∧
    (∀ f t, drawPixels ps s = .error (f, t) → ZeroOrOne t) := by
  induction ps generalizing s with
  | nil => exact ⟨fun t ht => by cases ht; exact h, fun f t ht => by cases ht⟩
  | cons p rest ih =>
    rcases drawBit_cases p.1 p.2 s with ⟨_, hd⟩ | ⟨_, _, hd⟩ | ⟨_, _, hd⟩
    · simp only [drawPixels, hd]
      exact ⟨fun t ht => (by cases ht), fun f t ht => by cases ht; exact h⟩
    · simp only [drawPixels, hd]
      exact ⟨fun t ht => (by cases ht), fun f t ht => by cases ht; exact h⟩
    · simp only [drawPixels, hd]
      refine ih _ ?_
      unfold ZeroOrOne
      rw [readV_writeV_same]
      exact h.or_flag _

/-- The rows of a sprite leave 0 or 1 in `VF`, where a part of a draw is all that was done too. -/
theorem drawRows_flag (x0 y0 base n : Nat) (s : State) (h : ZeroOrOne s) :
    (∀ t, drawRows x0 y0 base (List.range n) s = .ok t → ZeroOrOne t) ∧
    (∀ f t, drawRows x0 y0 base (List.range n) s = .error (f, t) → ZeroOrOne t) := by
  rw [drawRows_eq]
  obtain ⟨hok, herr⟩ := drawPixels_flag (spritePixels s x0 y0 base (readableRows base n)) s h
  cases hd : drawPixels (spritePixels s x0 y0 base (readableRows base n)) s with
  | error e => exact ⟨fun t ht => (by cases ht), fun f t ht => by cases ht; exact herr _ _ hd⟩
  | ok u =>
    have hu := hok u hd
    simp only [Except.bind]
    split
    · exact ⟨fun t ht => by cases ht; exact hu, fun f t ht => by cases ht⟩
    · exact ⟨fun t ht => (by cases ht), fun f t ht => by cases ht; exact hu⟩

end Sys2Proof.Machine
end

