-- ==== Sys2Proof/Laws/Encoding.lean ====
section
/-! SUPPORT. The fields of an encoded word, one lemma per format and field, and a word put together
again from its fields (30_encoding.md R91, R92). -/

namespace Sys2Proof

theorem toFin_regField (r : Reg) : (regField r).toFin = r := by
  unfold regField
  apply Fin.ext
  simp

theorem regField_toFin (n : Nibble) : regField n.toFin = n := by
  unfold regField
  apply BitVec.eq_of_toNat_eq
  simp

/-! ### Format NNN -/

@[simp] theorem fieldA_encNNN (a : Nibble) (nnn : Addr) : fieldA (encNNN a nnn) = a :=
  BitVec.extractLsb'_append_eq_left

@[simp] theorem fieldNNN_encNNN (a : Nibble) (nnn : Addr) : fieldNNN (encNNN a nnn) = nnn :=
  BitVec.extractLsb'_append_eq_right

/-! ### Formats XKK and X -/

@[simp] theorem fieldA_encXKK (a : Nibble) (x : Reg) (kk : Byte) : fieldA (encXKK a x kk) = a :=
  (BitVec.extractLsb'_append_eq_of_le (xhi := a ++ regField x) (xlo := kk) (by decide)).trans
    BitVec.extractLsb'_append_eq_left

@[simp] theorem fieldX_encXKK (a : Nibble) (x : Reg) (kk : Byte) : fieldX (encXKK a x kk) = x :=
  (congrArg BitVec.toFin
    ((BitVec.extractLsb'_append_eq_of_le (xhi := a ++ regField x) (xlo := kk) (by decide)).trans
      BitVec.extractLsb'_append_eq_right)).trans (toFin_regField x)

@[simp] theorem fieldKK_encXKK (a : Nibble) (x : Reg) (kk : Byte) :
    fieldKK (encXKK a x kk) = kk :=
  BitVec.extractLsb'_append_eq_right

/-! ### Formats XY and XYN -/

@[simp] theorem fieldA_encXYN (a : Nibble) (x y : Reg) (d : Nibble) :
    fieldA (encXYN a x y d) = a :=
  (BitVec.extractLsb'_append_eq_of_le (xhi := a ++ regField x ++ regField y) (xlo := d)
    (by decide)).trans
    ((BitVec.extractLsb'_append_eq_of_le (xhi := a ++ regField x) (xlo := regField y)
      (by decide)).trans BitVec.extractLsb'_append_eq_left)

@[simp] theorem fieldX_encXYN (a : Nibble) (x y : Reg) (d : Nibble) :
    fieldX (encXYN a x y d) = x :=
  (congrArg BitVec.toFin
    ((BitVec.extractLsb'_append_eq_of_le (xhi := a ++ regField x ++ regField y) (xlo := d)
      (by decide)).trans
      ((BitVec.extractLsb'_append_eq_of_le (xhi := a ++ regField x) (xlo := regField y)
        (by decide)).trans BitVec.extractLsb'_append_eq_right))).trans (toFin_regField x)

@[simp] theorem fieldY_encXYN (a : Nibble) (x y : Reg) (d : Nibble) :
    fieldY (encXYN a x y d) = y :=
  (congrArg BitVec.toFin
    ((BitVec.extractLsb'_append_eq_of_le (xhi := a ++ regField x ++ regField y) (xlo := d)
      (by decide)).trans BitVec.extractLsb'_append_eq_right)).trans (toFin_regField y)

@[simp] theorem fieldN_encXYN (a : Nibble) (x y : Reg) (d : Nibble) :
    fieldN (encXYN a x y d) = d :=
  BitVec.extractLsb'_append_eq_right

/-! ### A word from its fields -/

theorem encNNN_fields (w : Word) : encNNN (fieldA w) (fieldNNN w) = w :=
  (BitVec.extractLsb'_append_extractLsb'_eq_extractLsb' (x := w) (by decide)).trans
    BitVec.extractLsb'_eq_self

theorem encXKK_fields (w : Word) : encXKK (fieldA w) (fieldX w) (fieldKK w) = w := by
  unfold encXKK fieldX
  rw [regField_toFin]
  have h : fieldA w ++ w.extractLsb' 8 4 = w.extractLsb' 8 8 :=
    BitVec.extractLsb'_append_extractLsb'_eq_extractLsb' (by decide)
  rw [h]
  exact (BitVec.extractLsb'_append_extractLsb'_eq_extractLsb' (x := w) (by decide)).trans
    BitVec.extractLsb'_eq_self

theorem encXYN_fields (w : Word) : encXYN (fieldA w) (fieldX w) (fieldY w) (fieldN w) = w := by
  unfold encXYN fieldX fieldY
  rw [regField_toFin, regField_toFin]
  have h : fieldA w ++ w.extractLsb' 8 4 = w.extractLsb' 8 8 :=
    BitVec.extractLsb'_append_extractLsb'_eq_extractLsb' (by decide)
  have h2 : w.extractLsb' 8 8 ++ w.extractLsb' 4 4 = w.extractLsb' 4 12 :=
    BitVec.extractLsb'_append_extractLsb'_eq_extractLsb' (by decide)
  rw [h, h2]
  exact (BitVec.extractLsb'_append_extractLsb'_eq_extractLsb' (x := w) (by decide)).trans
    BitVec.extractLsb'_eq_self

/-- The two bytes of a word put together again. -/
theorem ofBytes_highByte_lowByte (w : Word) : Word.ofBytes w.highByte w.lowByte = w :=
  (BitVec.extractLsb'_append_extractLsb'_eq_extractLsb' (x := w) (by decide)).trans
    BitVec.extractLsb'_eq_self

@[simp] theorem highByte_ofBytes (hi lo : Byte) : (Word.ofBytes hi lo).highByte = hi :=
  BitVec.extractLsb'_append_eq_left

@[simp] theorem lowByte_ofBytes (hi lo : Byte) : (Word.ofBytes hi lo).lowByte = lo :=
  BitVec.extractLsb'_append_eq_right

/-! ### The decoder group by group (R94) -/

theorem nibble_cases (n : Nibble) :
    n = 0x0#4 ∨ n = 0x1#4 ∨ n = 0x2#4 ∨ n = 0x3#4 ∨ n = 0x4#4 ∨ n = 0x5#4 ∨ n = 0x6#4 ∨ n = 0x7#4 ∨
    n = 0x8#4 ∨ n = 0x9#4 ∨ n = 0xA#4 ∨ n = 0xB#4 ∨ n = 0xC#4 ∨ n = 0xD#4 ∨ n = 0xE#4 ∨
    n = 0xF#4 := by
  bv_omega

section Groups

variable {w : Word}

theorem decode_group0 (h : fieldA w = 0x0#4) :
    decode w = decodeGroup0 (fieldNNN w) := by
  simp only [decode, h]
  rfl

theorem decode_group1 (h : fieldA w = 0x1#4) :
    decode w = .jp (fieldNNN w) := by
  simp only [decode, h]
  rfl

theorem decode_group2 (h : fieldA w = 0x2#4) :
    decode w = .call (fieldNNN w) := by
  simp only [decode, h]
  rfl

theorem decode_group3 (h : fieldA w = 0x3#4) :
    decode w = .seImm (fieldX w) (fieldKK w) := by
  simp only [decode, h]
  rfl

theorem decode_group4 (h : fieldA w = 0x4#4) :
    decode w = .sneImm (fieldX w) (fieldKK w) := by
  simp only [decode, h]
  rfl

theorem decode_group5 (h : fieldA w = 0x5#4) :
    decode w = (if fieldN w = 0x0#4 then .seReg (fieldX w) (fieldY w) else .illegal w) := by
  simp only [decode, h]
  rfl

theorem decode_group6 (h : fieldA w = 0x6#4) :
    decode w = .ldImm (fieldX w) (fieldKK w) := by
  simp only [decode, h]
  rfl

theorem decode_group7 (h : fieldA w = 0x7#4) :
    decode w = .addImm (fieldX w) (fieldKK w) := by
  simp only [decode, h]
  rfl

theorem decode_group8 (h : fieldA w = 0x8#4) :
    decode w = decodeGroup8 w (fieldX w) (fieldY w) (fieldN w) := by
  simp only [decode, h]
  rfl

theorem decode_group9 (h : fieldA w = 0x9#4) :
    decode w = (if fieldN w = 0x0#4 then .sneReg (fieldX w) (fieldY w) else .illegal w) := by
  simp only [decode, h]
  rfl

theorem decode_groupA (h : fieldA w = 0xA#4) :
    decode w = .ldI (fieldNNN w) := by
  simp only [decode, h]
  rfl

theorem decode_groupB (h : fieldA w = 0xB#4) :
    decode w = .jpV0 (fieldNNN w) := by
  simp only [decode, h]
  rfl

theorem decode_groupC (h : fieldA w = 0xC#4) :
    decode w = .rnd (fieldX w) (fieldKK w) := by
  simp only [decode, h]
  rfl

theorem decode_groupD (h : fieldA w = 0xD#4) :
    decode w = .drw (fieldX w) (fieldY w) (fieldN w) := by
  simp only [decode, h]
  rfl

theorem decode_groupE (h : fieldA w = 0xE#4) :
    decode w = decodeGroupE w (fieldX w) (fieldKK w) := by
  simp only [decode, h]
  rfl

theorem decode_groupF (h : fieldA w = 0xF#4) :
    decode w = decodeGroupF w (fieldX w) (fieldKK w) := by
  simp only [decode, h]
  rfl

end Groups

/-! ### Fields under the masks of the opcode map (R95) -/

theorem fieldA_mask_F000 (w : Word) : fieldA (w &&& 0xF000) = fieldA w := by
  apply BitVec.eq_of_getLsbD_eq
  intro i hi
  interval_cases i <;> simp [fieldA]

theorem fieldA_mask_F00F (w : Word) : fieldA (w &&& 0xF00F) = fieldA w := by
  apply BitVec.eq_of_getLsbD_eq
  intro i hi
  interval_cases i <;> simp [fieldA]

theorem fieldN_mask_F00F (w : Word) : fieldN (w &&& 0xF00F) = fieldN w := by
  apply BitVec.eq_of_getLsbD_eq
  intro i hi
  interval_cases i <;> simp [fieldN]

theorem fieldA_mask_F0FF (w : Word) : fieldA (w &&& 0xF0FF) = fieldA w := by
  apply BitVec.eq_of_getLsbD_eq
  intro i hi
  interval_cases i <;> simp [fieldA]

theorem fieldKK_mask_F0FF (w : Word) : fieldKK (w &&& 0xF0FF) = fieldKK w := by
  apply BitVec.eq_of_getLsbD_eq
  intro i hi
  interval_cases i <;> simp [fieldKK]

theorem fieldN_mask_000F (w : Word) : fieldN (w &&& 0x000F) = fieldN w := by
  apply BitVec.eq_of_getLsbD_eq
  intro i hi
  interval_cases i <;> simp [fieldN]

/-- A word matched by a mask `F000` row. -/
theorem fieldA_of_F000 {w m : Word} (h : w &&& 0xF000 = m) : fieldA w = fieldA m := by
  rw [← h, fieldA_mask_F000]

/-- A word matched by a mask `F00F` row. -/
theorem fields_of_F00F {w m : Word} (h : w &&& 0xF00F = m) :
    fieldA w = fieldA m ∧ fieldN w = fieldN m := by
  rw [← h, fieldA_mask_F00F, fieldN_mask_F00F]
  exact ⟨rfl, rfl⟩

/-- A word matched by a mask `F0FF` row. -/
theorem fields_of_F0FF {w m : Word} (h : w &&& 0xF0FF = m) :
    fieldA w = fieldA m ∧ fieldKK w = fieldKK m := by
  rw [← h, fieldA_mask_F0FF, fieldKK_mask_F0FF]
  exact ⟨rfl, rfl⟩

end Sys2Proof
end

