-- ==== Sys2Proof/Laws/PerInstr.lean ====
section
/-! SUPPORT. The per-instruction family RoundTrip of LAWS.json: decoding the encoding of a well-formed
instruction gives it back. -/

namespace Sys2Proof.Laws.RoundTrip

/-- Decode of encode is the instruction, where it is well-formed. -/
def Statement (i : Instr) : Prop := i.wellFormed = true → decode (encode i) = i

theorem cls : Statement .cls := fun _ => by decide

theorem ret : Statement .ret := fun _ => by decide

theorem sys (nnn : Addr) : Statement (.sys nnn) := fun h => by
  simp only [Instr.wellFormed, Bool.and_eq_true, bne_iff_ne] at h
  simp [encode, decode, decodeGroup0, h]

theorem jp (nnn : Addr) : Statement (.jp nnn) := fun _ => by simp [encode, decode]

theorem call (nnn : Addr) : Statement (.call nnn) := fun _ => by simp [encode, decode]

theorem ldI (nnn : Addr) : Statement (.ldI nnn) := fun _ => by simp [encode, decode]

theorem jpV0 (nnn : Addr) : Statement (.jpV0 nnn) := fun _ => by simp [encode, decode]

theorem seImm (x : Reg) (kk : Byte) : Statement (.seImm x kk) := fun _ => by
  simp [encode, decode]

theorem sneImm (x : Reg) (kk : Byte) : Statement (.sneImm x kk) := fun _ => by
  simp [encode, decode]

theorem ldImm (x : Reg) (kk : Byte) : Statement (.ldImm x kk) := fun _ => by
  simp [encode, decode]

theorem addImm (x : Reg) (kk : Byte) : Statement (.addImm x kk) := fun _ => by
  simp [encode, decode]

theorem rnd (x : Reg) (kk : Byte) : Statement (.rnd x kk) := fun _ => by
  simp [encode, decode]

theorem seReg (x y : Reg) : Statement (.seReg x y) := fun _ => by
  simp [encode, decode]

theorem ldReg (x y : Reg) : Statement (.ldReg x y) := fun _ => by
  simp [encode, decode, decodeGroup8]

theorem orReg (x y : Reg) : Statement (.orReg x y) := fun _ => by
  simp [encode, decode, decodeGroup8]

theorem andReg (x y : Reg) : Statement (.andReg x y) := fun _ => by
  simp [encode, decode, decodeGroup8]

theorem xorReg (x y : Reg) : Statement (.xorReg x y) := fun _ => by
  simp [encode, decode, decodeGroup8]

theorem addReg (x y : Reg) : Statement (.addReg x y) := fun _ => by
  simp [encode, decode, decodeGroup8]

theorem subReg (x y : Reg) : Statement (.subReg x y) := fun _ => by
  simp [encode, decode, decodeGroup8]

theorem shr (x y : Reg) : Statement (.shr x y) := fun _ => by
  simp [encode, decode, decodeGroup8]

theorem subn (x y : Reg) : Statement (.subn x y) := fun _ => by
  simp [encode, decode, decodeGroup8]

theorem shl (x y : Reg) : Statement (.shl x y) := fun _ => by
  simp [encode, decode, decodeGroup8]

theorem sneReg (x y : Reg) : Statement (.sneReg x y) := fun _ => by
  simp [encode, decode]

theorem drw (x y : Reg) (n : Nibble) : Statement (.drw x y n) := fun _ => by
  simp [encode, decode]

theorem skp (x : Reg) : Statement (.skp x) := fun _ => by
  simp [encode, decode, decodeGroupE]

theorem sknp (x : Reg) : Statement (.sknp x) := fun _ => by
  simp [encode, decode, decodeGroupE]

theorem ldVxDt (x : Reg) : Statement (.ldVxDt x) := fun _ => by
  simp [encode, decode, decodeGroupF]

theorem ldVxK (x : Reg) : Statement (.ldVxK x) := fun _ => by
  simp [encode, decode, decodeGroupF]

theorem ldDtVx (x : Reg) : Statement (.ldDtVx x) := fun _ => by
  simp [encode, decode, decodeGroupF]

theorem ldStVx (x : Reg) : Statement (.ldStVx x) := fun _ => by
  simp [encode, decode, decodeGroupF]

theorem addI (x : Reg) : Statement (.addI x) := fun _ => by
  simp [encode, decode, decodeGroupF]

theorem ldF (x : Reg) : Statement (.ldF x) := fun _ => by
  simp [encode, decode, decodeGroupF]

theorem ldB (x : Reg) : Statement (.ldB x) := fun _ => by
  simp [encode, decode, decodeGroupF]

theorem ldMemVx (x : Reg) : Statement (.ldMemVx x) := fun _ => by
  simp [encode, decode, decodeGroupF]

theorem ldVxMem (x : Reg) : Statement (.ldVxMem x) := fun _ => by
  simp [encode, decode, decodeGroupF]

theorem illegal (w : Word) : Statement (.illegal w) := fun h => by
  simp only [Instr.wellFormed, illegalWord, Bool.or_eq_true, Bool.and_eq_true, beq_iff_eq,
    bne_iff_ne, Bool.not_eq_true', List.contains_eq_mem, decide_eq_false_iff_not,
    decide_eq_true_eq, List.mem_cons, List.not_mem_nil, or_false, not_or] at h
  change decode w = .illegal w
  have hA : w.extractLsb' 12 4 = fieldA w := rfl
  have hN : w.extractLsb' 0 4 = fieldN w := rfl
  have hK : w.extractLsb' 0 8 = fieldKK w := rfl
  rw [hA, hN, hK] at h
  rcases h with (((⟨ha, hd⟩ | ⟨ha, hd⟩) | ⟨ha, hd⟩) | ⟨ha, hd⟩) | ⟨ha, hd⟩
  · simp [decode, ha, hd]
  · rcases hd with hd | hd | hd | hd | hd | hd | hd <;> simp [decode, decodeGroup8, ha, hd]
  · simp [decode, ha, hd]
  · simp [decode, decodeGroupE, ha, hd]
  · simp [decode, decodeGroupF, ha, hd]

end Sys2Proof.Laws.RoundTrip
end

