-- ==== Sys2Proof/Laws/Savestate.lean ====
section
/-! SUPPORT. The savestate codec field by field: what byte stands at which offset of a captured image, and
how little-endian fields and packed pixels come apart and together (45_savestate_codec.md). -/

namespace Sys2Proof.Machine

theorem capture_length (s : State) : (capture s).length = 4415 := by
  simp only [capture, List.length_map, List.length_range]
  rfl

/-- The byte at an offset of a captured image. -/
theorem byteAt_capture (s : State) {o : Nat} (h : o < 4415) :
    byteAt (capture s) o = captureByte s o := by
  have hl : o < (capture s).length := by rw [capture_length]; exact h
  unfold byteAt
  rw [List.getD_eq_getElem _ _ hl]
  simp [capture]

/-- An image is known by its bytes. -/
theorem image_ext {b c : List Byte} (hb : b.length = 4415) (hc : c.length = 4415)
    (h : ∀ o, o < 4415 → byteAt b o = byteAt c o) : b = c := by
  apply List.ext_getElem (hb.trans hc.symm)
  intro o h1 h2
  have := h o (by omega)
  unfold byteAt at this
  rwa [List.getD_eq_getElem _ _ h1, List.getD_eq_getElem _ _ h2] at this

theorem byteAt_take {b : List Byte} {n o : Nat} (h : o < n) : byteAt (b.take n) o = byteAt b o := by
  simp [byteAt, List.getD_eq_getElem?_getD, h]

theorem byteAt_drop (b : List Byte) (n o : Nat) : byteAt (b.drop n) o = byteAt b (n + o) := by
  simp [byteAt, List.getD_eq_getElem?_getD]

/-! ### Little-endian fields (R242) -/

theorem wordByte_zero (w : Word) : wordByte w 0 = w.lowByte := rfl

theorem wordByte_one (w : Word) : wordByte w 1 = w.highByte := rfl

theorem lowByte_toNat (w : Word) : w.lowByte.toNat = w.toNat % 256 := by
  simp [Word.lowByte]

theorem highByte_toNat (w : Word) : w.highByte.toNat = w.toNat / 256 := by
  have := w.isLt
  simp [Word.highByte, BitVec.extractLsb'_toNat, Nat.shiftRight_eq_div_pow]
  omega

/-- A field whose two bytes are a word's is that word. -/
theorem wordAt_of_bytes {b : List Byte} {o : Nat} {w : Word} (hlo : byteAt b o = w.lowByte)
    (hhi : byteAt b (o + 1) = w.highByte) : wordAt b o = w := by
  unfold wordAt
  rw [hlo, hhi, ofBytes_highByte_lowByte]

theorem wordByte_wordAt (b : List Byte) (o k : Nat) (hk : k < 2) :
    wordByte (wordAt b o) k = byteAt b (o + k) := by
  have : k = 0 ∨ k = 1 := by omega
  rcases this with rfl | rfl
  · simp [wordByte, wordAt]
  · simp [wordByte, wordAt]

/-! ### Packed pixels (R244) -/

theorem packedByte_bit (g : Grid) (py j : Nat) {k : Nat} (hk : k < 8) :
    (packedByte g py j).getLsbD (7 - k) = g.get (8 * j + k) py := by
  have h7 : 7 - k < 8 := by omega
  unfold packedByte
  rw [BitVec.getLsbD_ofFnLE]
  simp only [h7, dif_pos]
  congr 2
  omega

/-- The pixel of a column in its packed byte. -/
theorem packedByte_pixel (g : Grid) (px py : Nat) :
    (packedByte g py (px / 8)).getLsbD (7 - px % 8) = g.get px py := by
  rw [packedByte_bit g py _ (Nat.mod_lt px (by decide))]
  congr 1
  omega

/-- A byte whose bits are the pixels of a packed byte is that byte. -/
theorem packedByte_eq {g : Grid} {py j : Nat} {v : Byte}
    (h : ∀ k, k < 8 → g.get (8 * j + k) py = v.getLsbD (7 - k)) : packedByte g py j = v := by
  apply BitVec.eq_of_getLsbD_eq
  intro m hm
  have h1 := packedByte_bit g py j (k := 7 - m) (by omega)
  have h2 := h (7 - m) (by omega)
  have h3 : 7 - (7 - m) = m := by omega
  rw [h3] at h1 h2
  rw [h1, h2]

/-! ### The byte at each offset of the layout (R241) -/

theorem captureByte_register (s : State) (i : Reg) : captureByte s (4 + i.val) = s.readV i := by
  have hi : (⟨4 + i.val - 4, by omega⟩ : Fin 16) = i := Fin.ext (Nat.add_sub_cancel_left ..)
  simp (disch := omega) only [captureByte, if_neg, dif_pos, hi]

theorem captureByte_stack (s : State) {k j : Nat} (hk : k < 16) (hj : j < 2) :
    captureByte s (27 + 2 * k + j) = wordByte (s.readStack k) j := by
  have entry : (27 + 2 * k + j - 27) / 2 = k ∧ (27 + 2 * k + j - 27) % 2 = j := by omega
  simp (disch := omega) only [captureByte, if_neg, dif_neg, if_pos, entry]

theorem captureByte_memory (s : State) {a : Nat} (ha : a < 4096) :
    captureByte s (59 + a) = s.mem.read a := by
  simp (disch := omega) only [captureByte, if_neg, dif_neg, if_pos, Nat.add_sub_cancel_left]

theorem captureByte_pixels (s : State) {py j : Nat} (hp : py < 32) (hj : j < 8) :
    captureByte s (4155 + 8 * py + j) = packedByte s.pix py j := by
  have group : (4155 + 8 * py + j - 4155) / 8 = py ∧ (4155 + 8 * py + j - 4155) % 8 = j := by omega
  simp (disch := omega) only [captureByte, if_neg, dif_neg, if_pos, group]

/-! ### The sink after a restore (R253) -/

/-- What telling the sink of all pixels does. -/
theorem notifyAllPixels_cases (s : State) :
    ((∀ k, s.env.sinkFailsAfter = some k → 2048 ≤ k) ∧ notifyAllPixels s =
      (true, s.setEnv { s.env with sinkFailsAfter := s.env.sinkFailsAfter.map fun b => b - 2048 })) ∨
    (∃ k, s.env.sinkFailsAfter = some k ∧ k < 2048 ∧
      notifyAllPixels s = (false, s.setEnv { s.env with sinkFailsAfter := some 0 })) := by
  unfold notifyAllPixels
  cases h : s.env.sinkFailsAfter with
  | none =>
    refine .inl ⟨fun k hk => (by cases hk), ?_⟩
    show (true, s) = (true, { s with env := { s.env with sinkFailsAfter := none } })
    rw [← h]
  | some k =>
    have h2048 : Config.displayW * Config.displayH = 2048 := rfl
    simp only [h2048]
    by_cases hk : k < 2048
    · exact .inr ⟨k, rfl, hk, by rw [if_pos hk]⟩
    · refine .inl ⟨fun j hj => by cases hj; omega, ?_⟩
      rw [if_neg hk]
      rfl

end Sys2Proof.Machine
end

