-- ==== Sys2Proof/Laws/Step.lean ====
section
/-! SUPPORT. The step taken apart: which transition it is, when a transition exists, what a CPU step does
behind an open or a closed gate, and a run one step at a time. -/

namespace Sys2Proof.Machine

theorem step_of_nil {s : State} (h : s.schedule = []) : step s = transition .cpuTick s := by
  unfold step
  rw [h]

theorem step_of_cons {s : State} {e : Event} {rest : List Event} (h : s.schedule = e :: rest) :
    step s = transition e { s with schedule := rest } := by
  unfold step
  rw [h]

theorem transition_running {s : State} (h : s.status = .running) (e : Event) :
    transition e s = applyEvent e s := by
  unfold transition
  rw [h]

/-- On a machine whose run has ended no transition has any effect (R32). -/
theorem transition_ended {s : State} (h : s.status ≠ .running) (e : Event) :
    transition e s = .next s := by
  unfold transition
  split
  · exact absurd ‹_› h
  · rfl
  · rfl

/-- What a transition to a next state can be. -/
theorem transition_cases {s t : State} {e : Event} (h : transition e s = .next t) :
    (s.status = .running ∧ applyEvent e s = .next t) ∨ (s.status ≠ .running ∧ t = s) := by
  by_cases hr : s.status = .running
  · exact .inl ⟨hr, (transition_running hr e).symm.trans h⟩
  · rw [transition_ended hr] at h
    cases h
    exact .inr ⟨hr, rfl⟩

/-- A step of a machine whose run has ended takes one event off the schedule and changes nothing else. -/
theorem step_ended {s : State} (h : s.status ≠ .running) :
    step s = .next { s with schedule := s.schedule.drop 1 } := by
  unfold step
  split
  · next hs =>
    rw [transition_ended h]
    simp only [hs, List.drop_nil]
    rw [← hs]
  · next e rest hs =>
    rw [transition_ended (by exact h)]
    simp only [hs, List.drop_succ_cons, List.drop_zero]

/-- A step is one transition, of the state without the event it takes off the schedule. -/
theorem step_cases {s t : State} (h : step s = .next t) :
    (s.schedule = [] ∧ transition .cpuTick s = .next t) ∨
    (∃ e rest, s.schedule = e :: rest ∧ transition e { s with schedule := rest } = .next t) := by
  unfold step at h
  split at h
  · next hs => exact .inl ⟨hs, h⟩
  · next e rest hs => exact .inr ⟨e, rest, hs, h⟩

theorem gated_iff (s : State) : gated s = true ↔ s.paused = true ∧ s.singleStep = false := by
  simp [gated]

theorem cpuStep_gated {s : State} (h : gated s = true) : cpuStep s = .next s := by
  unfold cpuStep
  rw [if_pos h]

theorem cpuStep_fault {s : State} (hg : gated s = false) (hp : 0xFFF ≤ s.pc.toNat) :
    cpuStep s = .next { s with
      singleStep := false, status := .faulted (.outOfBounds (.address s.pc.toNat)) } := by
  have ha : addressOk (s.pc.toNat + 1) = false := by
    rw [Bool.eq_false_iff, ne_eq, addressOk_iff]
    omega
  simp only [cpuStep, hg, fetch, setSingleStepFlag_pc, ha]
  rfl

theorem cpuStep_exec {s : State} (hg : gated s = false) (hp : s.pc.toNat < 0xFFF) :
    cpuStep s =
      exec (decode (Word.ofBytes (s.mem.read s.pc.toNat) (s.mem.read (s.pc.toNat + 1))))
        { s with
          singleStep := false
          opcode := Word.ofBytes (s.mem.read s.pc.toNat) (s.mem.read (s.pc.toNat + 1)) } := by
  have ha : addressOk (s.pc.toNat + 1) = true := by
    rw [addressOk_iff]
    omega
  simp only [cpuStep, hg, fetch, setSingleStepFlag_pc, ha]
  rfl

/-- What a CPU step can do (R120). -/
theorem cpuStep_cases (s : State) :
    (gated s = true ∧ cpuStep s = .next s) ∨
    (gated s = false ∧ 0xFFF ≤ s.pc.toNat ∧ cpuStep s = .next { s with
      singleStep := false, status := .faulted (.outOfBounds (.address s.pc.toNat)) }) ∨
    (gated s = false ∧ s.pc.toNat < 0xFFF ∧ ∃ w, cpuStep s =
      exec (decode w) { s with singleStep := false, opcode := w }) := by
  cases hg : gated s with
  | true => exact .inl ⟨rfl, cpuStep_gated hg⟩
  | false =>
    by_cases hp : s.pc.toNat < 0xFFF
    · exact .inr (.inr ⟨rfl, hp, _, cpuStep_exec hg hp⟩)
    · exact .inr (.inl ⟨rfl, Nat.le_of_not_lt hp, cpuStep_fault hg (Nat.le_of_not_lt hp)⟩)

theorem loadFont_eq (font : List Byte) (s : State) :
    loadFont font s = s.setMem (s.mem.writeBytes 0 font) := rfl

theorem run_zero (s : State) : Sys2Proof.core.run 0 s = .next s := rfl

theorem run_succ {s t : State} (h : step s = .next t) (k : Nat) :
    Sys2Proof.core.run (k + 1) s = Sys2Proof.core.run k t := by
  have h' : Sys2Proof.core.step s = .next t := h
  simp only [Host.Core.run, h']

end Sys2Proof.Machine
end

