-- ==== Sys2Proof/Tests/Slice0.lean ====
section
/-! SUPPORT. The model's own tests: the checks of WellFormed, words written out from the encodings of the
spec, one step at a time against the vectors of 95_test_vectors.md, and for every obligation with
hypotheses a state and operands that meet them. -/

namespace Sys2Proof.Tests

open Machine

/-! ## WellFormed: one ill-formed term for each check -/

theorem test_sys_of_cls_word_is_refused : (Instr.sys 0x0E0).wellFormed = false := by decide

theorem test_sys_of_ret_word_is_refused : (Instr.sys 0x0EE).wellFormed = false := by decide

theorem test_illegal_of_legal_words_is_refused :
    (Instr.illegal 0x6012).wellFormed = false ∧ (Instr.illegal 0x5120).wellFormed = false ∧
      (Instr.illegal 0x812E).wellFormed = false ∧ (Instr.illegal 0xE09E).wellFormed = false ∧
      (Instr.illegal 0xF165).wellFormed = false ∧ (Instr.illegal 0x00FF).wellFormed = false := by
  decide

theorem test_near_misses_are_well_formed :
    (Instr.sys 0x0E1).wellFormed = true ∧ (Instr.illegal 0x5121).wellFormed = true ∧
      (Instr.illegal 0x9121).wellFormed = true ∧ (Instr.illegal 0x812F).wellFormed = true ∧
      (Instr.illegal 0xE09F).wellFormed = true ∧ (Instr.illegal 0xF000).wellFormed = true := by
  decide

/-! ## Words written out bit by bit from the encodings of 30_encoding.md R95 -/

theorem test_decode_control :
    decode 0b0000000011100000 = .cls ∧
      decode 0b0000000011101110 = .ret ∧
      decode 0b0000000100100011 = .sys 0x123 ∧
      decode 0b0001001000000100 = .jp 0x204 ∧
      decode 0b0010001000010000 = .call 0x210 ∧
      decode 0b1011001100000000 = .jpV0 0x300 := by
  decide

theorem test_decode_skip :
    decode 0b0011000100110011 = .seImm 1 0x33 ∧
      decode 0b0100000100110011 = .sneImm 1 0x33 ∧
      decode 0b0101000100100000 = .seReg 1 2 ∧
      decode 0b1001000100100000 = .sneReg 1 2 := by
  decide

theorem test_decode_immediate :
    decode 0b0110000000010010 = .ldImm 0 0x12 ∧
      decode 0b0111000000000101 = .addImm 0 0x05 ∧
      decode 0b1100000100001111 = .rnd 1 0x0F ∧
      decode 0b1010000100100011 = .ldI 0x123 := by
  decide

theorem test_decode_group8 :
    decode 0b1000000100100000 = .ldReg 1 2 ∧
      decode 0b1000000100100001 = .orReg 1 2 ∧
      decode 0b1000000100100010 = .andReg 1 2 ∧
      decode 0b1000000100100011 = .xorReg 1 2 ∧
      decode 0b1000000100100100 = .addReg 1 2 ∧
      decode 0b1000000100100101 = .subReg 1 2 ∧
      decode 0b1000000100100110 = .shr 1 2 ∧
      decode 0b1000000100100111 = .subn 1 2 ∧
      decode 0b1000000100101110 = .shl 1 2 := by
  decide

theorem test_decode_display :
    decode 0b1101000000010010 = .drw 0 1 2 := by
  decide

theorem test_decode_key :
    decode 0b1110000010011110 = .skp 0 ∧
      decode 0b1110000010100001 = .sknp 0 ∧
      decode 0b1111001100001010 = .ldVxK 3 := by
  decide

theorem test_decode_timer :
    decode 0b1111000100000111 = .ldVxDt 1 ∧
      decode 0b1111000000010101 = .ldDtVx 0 ∧
      decode 0b1111000000011000 = .ldStVx 0 := by
  decide

theorem test_decode_memory :
    decode 0b1111000100011110 = .addI 1 ∧
      decode 0b1111000100101001 = .ldF 1 ∧
      decode 0b1111000100110011 = .ldB 1 ∧
      decode 0b1111001001010101 = .ldMemVx 2 ∧
      decode 0b1111001001100101 = .ldVxMem 2 := by
  decide

theorem test_decode_illegal :
    decode 0b1000000100101000 = .illegal 0x8128 := by
  decide

theorem test_decode_table_word :
    decodeTableWord 16 0xD012 = some (.drw 0 1 2) ∧ decodeTableWord 8 0xEE = some .ret := by decide

theorem test_decode_bytes_high_byte_first :
    decodeBytes [0x61, 0x2A, 0x00] = .ok (.ldImm 1 0x2A, [0x00]) ∧
      decodeBytes [0x61] = .error .truncated := by
  decide

/-! ## One step, against the vectors of 95_test_vectors.md -/

/-- The reset state with some registers preset. -/
def start (regs : List (Reg × Byte)) : State :=
  regs.foldl (fun s p => s.writeV p.1 p.2) State.reset

/-- The reset state with `I`, some registers and some bytes preset. -/
def startAt (i : Word) (regs : List (Reg × Byte)) (bytes : Memory) : State :=
  { start regs with I := i, mem := bytes }

/-- One step of the machine with a word at `pc`. -/
def one (w : Nat) (s : State) : Result := step (s.withFetchWord 16 w)

/-- Something of the next state. -/
def sees {α : Type} (f : State → α) : Result → Option α
  | .next t => some (f t)
  | .fault _ => none
  | .refused _ => none

/-- What the arithmetic tests look at. -/
def alu (t : State) : Byte × Byte × Word := (t.readV 1, t.readV regF, t.pc)

/-- AL1 with V1. -/
theorem test_ldImm :
    sees alu (one 0x6112 (start [])) = some (0x12, 0x00, 0x202) := by decide

/-- AL2. -/
theorem test_ldImm_VF :
    sees alu (one 0x6FAB State.reset) = some (0x00, 0xAB, 0x202) := by decide

/-- AL4 with V1. -/
theorem test_addImm_wraps :
    sees alu (one 0x7102 (start [(1, 0xFF), (regF, 0x00)])) = some (0x01, 0x00, 0x202) := by decide

/-- AL5. -/
theorem test_addImm_VF_is_the_sum :
    sees alu (one 0x7F01 (start [(regF, 0xFF)])) = some (0x00, 0x00, 0x202) := by decide

/-- AL6. -/
theorem test_ldReg :
    sees alu (one 0x8120 (start [(1, 0x01), (2, 0xA5), (regF, 0x09)])) = some (0xA5, 0x09, 0x202) := by decide

/-- AL7. -/
theorem test_orReg :
    sees alu (one 0x8121 (start [(1, 0xF0), (2, 0x3C), (regF, 0x09)])) = some (0xFC, 0x09, 0x202) := by decide

/-- AL8. -/
theorem test_andReg :
    sees alu (one 0x8122 (start [(1, 0xF0), (2, 0x3C), (regF, 0x09)])) = some (0x30, 0x09, 0x202) := by decide

/-- AL9. -/
theorem test_xorReg :
    sees alu (one 0x8123 (start [(1, 0xF0), (2, 0x3C), (regF, 0x09)])) = some (0xCC, 0x09, 0x202) := by decide

/-- S2: the source's own example. -/
theorem test_addReg_carry :
    sees alu (one 0x8124 (start [(1, 0xFF), (2, 0x02)])) = some (0x01, 0x01, 0x202) := by decide

/-- AL14. -/
theorem test_addReg_flag_wins :
    sees alu (one 0x8F14 (start [(regF, 0x01), (1, 0x02)])) = some (0x02, 0x00, 0x202) := by decide

/-- AL17. -/
theorem test_subReg_borrow :
    sees alu (one 0x8125 (start [(1, 0x03), (2, 0x05), (regF, 0x01)])) = some (0xFE, 0x00, 0x202) := by decide

/-- AL18. -/
theorem test_subReg_equal :
    sees alu (one 0x8125 (start [(1, 0x05), (2, 0x05)])) = some (0x00, 0x01, 0x202) := by decide

/-- AL20. -/
theorem test_shr_ignores_y :
    sees alu (one 0x8126 (start [(1, 0x05), (2, 0xFF)])) = some (0x02, 0x01, 0x202) := by decide

/-- AL23. -/
theorem test_shr_flag_wins :
    sees alu (one 0x8F06 (start [(regF, 0x02)])) = some (0x00, 0x00, 0x202) := by decide

/-- AL24. -/
theorem test_subn :
    sees alu (one 0x8127 (start [(1, 0x03), (2, 0x05)])) = some (0x02, 0x01, 0x202) := by decide

/-- AL25. -/
theorem test_subn_borrow :
    sees alu (one 0x8127 (start [(1, 0x05), (2, 0x03), (regF, 0x01)])) = some (0xFE, 0x00, 0x202) := by decide

/-- AL27. -/
theorem test_shl :
    sees alu (one 0x812E (start [(1, 0x81), (2, 0xFF)])) = some (0x02, 0x01, 0x202) := by decide

/-- AL28. -/
theorem test_shl_no_carry :
    sees alu (one 0x812E (start [(1, 0x41), (2, 0xFF), (regF, 0x01)])) = some (0x82, 0x00, 0x202) := by decide

/-- AL30. -/
theorem test_rnd :
    sees alu (one 0xC10F { start [(regF, 0x09)] with
      env := { Env.fresh with randomBytes := [0xA7] } }) = some (0x07, 0x09, 0x202) := by decide

/-- CF2. -/
theorem test_sys :
    sees (fun t => (t.pc, t.opcode)) (one 0x0123 State.reset) = some (0x202, 0x0123) := by decide

/-- IL3. -/
theorem test_illegal :
    sees alu (one 0x8128 (start [(1, 0x05), (2, 0x03), (regF, 0x09)])) = some (0x05, 0x09, 0x202) := by decide

/-- IL1. -/
theorem test_illegal_is_no_skip :
    sees (·.pc) (one 0x5121 (start [(1, 0x07), (2, 0x07)])) = some 0x202 := by decide

/-- CF4. -/
theorem test_ret :
    sees (fun t => (t.pc, t.sp, t.readStack 15))
      (one 0x00EE { (State.reset.writeStack 15 0x0300) with sp := 16 }) = some (0x300, 15, 0x300) := by decide

/-- S4: the source's own example. -/
theorem test_ret_underflow :
    sees (fun t => (t.status, t.pc, t.sp)) (one 0x00EE State.reset) =
      some (.faulted .stackUnderflow, 0x200, 0) := by decide

/-- CF7. -/
theorem test_jp :
    sees (·.pc) (one 0x1FFF State.reset) = some 0xFFF := by decide

/-- CF10. -/
theorem test_call :
    sees (fun t => (t.pc, t.sp, t.readStack 15)) (one 0x2300 { State.reset with sp := 15 }) =
      some (0x300, 16, 0x202) := by decide

/-- CF11. -/
theorem test_call_overflow :
    sees (fun t => (t.status, t.pc, t.sp)) (one 0x2300 { State.reset with sp := 16 }) =
      some (.faulted .stackOverflow, 0x200, 16) := by decide

/-- CF14. -/
theorem test_jpV0 :
    sees (·.pc) (one 0xBFFF (start [(0, 0xFF)])) = some 0x10FE := by decide

/-- CF15. -/
theorem test_seImm :
    sees (·.pc) (one 0x3133 (start [(1, 0x33)])) = some 0x204 := by decide

/-- CF18. -/
theorem test_sneImm :
    sees (·.pc) (one 0x4133 (start [(1, 0x34)])) = some 0x204 := by decide

/-- CF19, CF20. -/
theorem test_seReg :
    sees (·.pc) (one 0x5120 (start [(1, 0x07), (2, 0x07)])) = some 0x204 ∧
      sees (·.pc) (one 0x5120 (start [(1, 0x07), (2, 0x08)])) = some 0x202 := by decide

/-- CF22, CF23. -/
theorem test_sneReg :
    sees (·.pc) (one 0x9120 (start [(1, 0x07), (2, 0x07)])) = some 0x202 ∧
      sees (·.pc) (one 0x9120 (start [(1, 0x07), (2, 0x08)])) = some 0x204 := by decide

/-- IX1. -/
theorem test_ldI :
    sees (·.I) (one 0xA123 State.reset) = some 0x0123 := by decide

/-- IX4. -/
theorem test_addI_is_not_masked :
    sees (fun t => (t.I, t.readV regF))
      (one 0xF11E (startAt 0x0FFF [(1, 0x01), (regF, 0x09)] [])) = some (0x1000, 0x09) := by decide

/-- IX5. -/
theorem test_addI_wraps :
    sees (·.I) (one 0xF11E (startAt 0xFFFF [(1, 0x02)] [])) = some 0x0001 := by decide

/-- IX8. -/
theorem test_ldF :
    sees (·.I) (one 0xF129 (start [(1, 0x0F)])) = some 0x004B := by decide

/-- IX9. -/
theorem test_ldF_no_digit :
    sees (fun t => (t.I, t.status, t.pc)) (one 0xF129 (startAt 0x0999 [(1, 0x10)] [])) =
      some (0x0999, .faulted (.outOfBounds (.digit 16)), 0x200) := by decide

/-- S6: the source's own example. -/
theorem test_ldB :
    sees (fun t => (t.mem.read 0x300, t.mem.read 0x301, t.mem.read 0x302))
      (one 0xF133 (startAt 0x0300 [(1, 157)] [])) = some (1, 5, 7) := by decide

/-- IX14, IX15. -/
theorem test_ldB_at_the_edge :
    sees (fun t => (t.mem.read 0xFFD, t.mem.read 0xFFF, t.status))
        (one 0xF133 (startAt 0x0FFD [(1, 123)] [])) = some (1, 3, .running) ∧
      sees (fun t => (t.mem.read 0xFFE, t.pc))
        (one 0xF133 (startAt 0x0FFE [(1, 123)] [(0xFFE, 0xEE)])) = some (0xEE, 0x200) := by decide

/-- IX17. -/
theorem test_ldMemVx :
    sees (fun t => (t.mem.read 0x300, t.mem.read 0x302, t.mem.read 0x303, t.I))
      (one 0xF255 (startAt 0x0300 [(0, 0x11), (1, 0x22), (2, 0x33), (3, 0x44)] [])) =
        some (0x11, 0x33, 0x00, 0x300) := by decide

/-- IX20. -/
theorem test_ldMemVx_stops :
    sees (fun t => (t.mem.read 0xFFE, t.mem.read 0xFFF, t.status, t.pc))
      (one 0xF255 (startAt 0x0FFE [(0, 0x11), (1, 0x22), (2, 0x33)] [])) =
        some (0x11, 0x22, .faulted (.outOfBounds (.address 0x1000)), 0x200) := by decide

/-- IX22. -/
theorem test_ldVxMem :
    sees (fun t => (t.readV 0, t.readV 2, t.readV 3, t.I))
      (one 0xF265 (startAt 0x0300 [(3, 0x99)] [(0x300, 0xDE), (0x301, 0xAD), (0x302, 0xBE)])) =
        some (0xDE, 0xBE, 0x99, 0x300) := by decide

/-- IX23. -/
theorem test_ldVxMem_stops :
    sees (fun t => (t.readV 0, t.readV 1, t.readV 2, t.pc))
      (one 0xF265 (startAt 0x0FFE [(0, 0x01), (1, 0x02), (2, 0x03)] [(0xFFE, 0xDE), (0xFFF, 0xAD)])) =
        some (0xDE, 0xAD, 0x03, 0x200) := by decide

/-- DR14. -/
theorem test_cls :
    sees (fun t => (t.pix.get 0 0, t.readV regF))
      (one 0x00E0 { start [(regF, 0x09)] with pix := Grid.clear.toggle 0 0 }) = some (false, 0x09) := by decide

/-- DR12: the coordinates are latched before VF is cleared. -/
theorem test_drw :
    sees (fun t => (t.pix.get 3 3, t.readV regF))
      (one 0xDFF1 (startAt 0x0300 [(regF, 0x03)] [(0x300, 0x80)])) = some (true, 0x00) := by decide

/-- DR4. -/
theorem test_drw_off_grid :
    sees (fun t => (t.pix.get 57 0, t.pix.get 63 0, t.status, t.pc))
      (one 0xD011 (startAt 0x0300 [(0, 57), (regF, 0x09)] [(0x300, 0xFF)])) =
        some (true, true, .faulted (.outOfBounds (.pixel 64 0)), 0x200) := by decide

/-- KT1, KT2. -/
theorem test_skp :
    sees (·.pc) (one 0xE09E { start [(0, 0x05)] with
        env := { Env.fresh with keyDowns := [true] } }) = some 0x204 ∧
      sees (·.pc) (one 0xE09E { start [(0, 0x05)] with
        env := { Env.fresh with keyDowns := [false] } }) = some 0x202 := by decide

/-- KT3, KT4. -/
theorem test_sknp :
    sees (·.pc) (one 0xE0A1 { start [(0, 0x05)] with
        env := { Env.fresh with keyDowns := [false] } }) = some 0x204 ∧
      sees (·.pc) (one 0xE0A1 { start [(0, 0x05)] with
        env := { Env.fresh with keyDowns := [true] } }) = some 0x202 := by decide

/-- KT5. -/
theorem test_ldVxK :
    sees (fun t => (t.readV 3, t.pc)) (one 0xF30A { State.reset with
      env := { Env.fresh with keyWaits := [.key 7] } }) = some (7, 0x202) := by decide

/-- KT7. -/
theorem test_ldVxDt :
    sees (fun t => (t.readV 1, t.dt)) (one 0xF107 { State.reset with dt := 0x2A }) =
      some (0x2A, 0x2A) := by decide

/-- KT8. -/
theorem test_ldDtVx :
    sees (fun t => (t.dt, t.st)) (one 0xF015 (start [(0, 0x03)])) = some (0x03, 0x00) := by decide

/-- KT9. -/
theorem test_ldStVx :
    sees (fun t => (t.st, t.dt, t.toneOn)) (one 0xF018 (start [(0, 0x03)])) =
      some (0x03, 0x00, true) := by decide

/-- TT2, TT3. -/
theorem test_timerTick :
    (timerTick State.reset).dt = 0 ∧
      (timerTick { State.reset with dt := 0xFF, st := 0x02 }).dt = 0xFE ∧
      (timerTick { State.reset with dt := 0xFF, st := 0x02 }).st = 0x01 := by decide

/-- FE1. -/
theorem test_odd_pc :
    sees (fun t => (t.readV 1, t.pc, t.opcode)) (step { State.reset with
      pc := 0x201, mem := [(0x201, 0x61), (0x202, 0x2A)] }) = some (0x2A, 0x203, 0x612A) := by decide

/-- FE3. -/
theorem test_fetch_at_last_byte :
    sees (fun t => (t.status, t.pc, t.opcode)) (step { State.reset with pc := 0xFFF }) =
      some (.faulted (.outOfBounds (.address 0xFFF)), 0xFFF, 0) := by decide

/-- The canonical form at reset. -/
theorem test_reset_memory_is_canonical :
    State.reset.mem.wf = true := by decide

/-- SV4. -/
theorem test_display_packing :
    packedByte (Grid.clear.toggle 0 0) 0 0 = 0x80 ∧ packedByte (Grid.clear.toggle 7 0) 0 0 = 0x01 ∧
      packedByte (Grid.clear.toggle 8 0) 0 1 = 0x80 ∧
      packedByte (Grid.clear.toggle 63 31) 31 7 = 0x01 := by
  decide

/-! ## Witnesses: for every obligation with hypotheses, a state and operands that meet them -/

theorem test_witness_DecodeOfEncode :
    (Instr.sys 0x0E1).wellFormed = true ∧ (Instr.illegal 0xFFFF).wellFormed = true ∧
      (Instr.drw 15 15 0xF).wellFormed = true := by
  decide

theorem test_witness_DecodeFollowsOpcodeMap :
    (0x00EF#16 ≠ 0x00E0 ∧ 0x00EF#16 ≠ 0x00EE ∧ 0x00EF#16 &&& 0xF000 = 0x0000) ∧
      0x1FFF#16 &&& 0xF000 = 0x1000 ∧ 0x2FFF#16 &&& 0xF000 = 0x2000 ∧
      0x3FFF#16 &&& 0xF000 = 0x3000 ∧ 0x4FFF#16 &&& 0xF000 = 0x4000 ∧
      0x5FF0#16 &&& 0xF00F = 0x5000 ∧ 0x6FFF#16 &&& 0xF000 = 0x6000 ∧
      0x7FFF#16 &&& 0xF000 = 0x7000 ∧ 0x8FF0#16 &&& 0xF00F = 0x8000 ∧
      0x8FF1#16 &&& 0xF00F = 0x8001 ∧ 0x8FF2#16 &&& 0xF00F = 0x8002 ∧
      0x8FF3#16 &&& 0xF00F = 0x8003 ∧ 0x8FF4#16 &&& 0xF00F = 0x8004 ∧
      0x8FF5#16 &&& 0xF00F = 0x8005 ∧ 0x8FF6#16 &&& 0xF00F = 0x8006 ∧
      0x8FF7#16 &&& 0xF00F = 0x8007 ∧ 0x8FFE#16 &&& 0xF00F = 0x800E ∧
      0x9FF0#16 &&& 0xF00F = 0x9000 := by
  decide

theorem test_witness_DecodeFollowsOpcodeMap_upper_groups :
    0xAFFF#16 &&& 0xF000 = 0xA000 ∧ 0xBFFF#16 &&& 0xF000 = 0xB000 ∧
      0xCFFF#16 &&& 0xF000 = 0xC000 ∧ 0xDFFF#16 &&& 0xF000 = 0xD000 ∧
      0xEF9E#16 &&& 0xF0FF = 0xE09E ∧ 0xEFA1#16 &&& 0xF0FF = 0xE0A1 ∧
      0xFF07#16 &&& 0xF0FF = 0xF007 ∧ 0xFF0A#16 &&& 0xF0FF = 0xF00A ∧
      0xFF15#16 &&& 0xF0FF = 0xF015 ∧ 0xFF18#16 &&& 0xF0FF = 0xF018 ∧
      0xFF1E#16 &&& 0xF0FF = 0xF01E ∧ 0xFF29#16 &&& 0xF0FF = 0xF029 ∧
      0xFF33#16 &&& 0xF0FF = 0xF033 ∧ 0xFF55#16 &&& 0xF0FF = 0xF055 ∧
      0xFF65#16 &&& 0xF0FF = 0xF065 ∧
      (fieldA 0x5FF1 = 0x5#4 ∧ fieldN 0x5FF1 ≠ 0x0#4) ∧
      (fieldA 0x8FF8 = 0x8#4 ∧
        fieldN 0x8FF8 ∈ [0x8#4, 0x9#4, 0xA#4, 0xB#4, 0xC#4, 0xD#4, 0xF#4]) ∧
      (fieldA 0x9FFF = 0x9#4 ∧ fieldN 0x9FFF ≠ 0x0#4) ∧
      (fieldA 0xEFFF = 0xE#4 ∧ fieldKK 0xEFFF ∉ [0x9E#8, 0xA1#8]) ∧
      (fieldA 0xFFFF = 0xF#4 ∧ fieldKK 0xFFFF ∉
        [0x07#8, 0x0A#8, 0x15#8, 0x18#8, 0x1E#8, 0x29#8, 0x33#8, 0x55#8, 0x65#8]) := by
  decide

/-- A machine whose next word, at the last legal fetch address, is `6012`. -/
def lastFetch : State := { State.reset with pc := 0xFFE, mem := [(0xFFE, 0x60), (0xFFF, 0x12)] }

theorem test_witness_StepRunsDecodedInstruction : Fetches lastFetch 0x6012 :=
  ⟨rfl, rfl, .inl rfl, by decide, by decide⟩

theorem test_witness_StepRunsDecodedInstruction_single_step :
    Fetches { lastFetch with paused := true, singleStep := true } 0x6012 :=
  ⟨rfl, rfl, .inr rfl, by decide, by decide⟩

theorem test_witness_PausedStepChangesNothing :
    ({ State.reset with paused := true } : State).status = .running ∧
      ({ State.reset with paused := true } : State).paused = true ∧
      ({ State.reset with paused := true } : State).singleStep = false :=
  ⟨rfl, rfl, rfl⟩

theorem test_witness_SingleStepIsConsumed :
    ({ lastFetch with paused := true } : State).status = .running ∧
      ∃ t, transition .cpuTick { lastFetch with paused := true, singleStep := true } = .next t ∧
        t.status = .running :=
  ⟨rfl, _, rfl, rfl⟩

theorem test_witness_FetchBeyondMemoryFaults :
    ({ State.reset with pc := 0xFFF } : State).status = .running ∧
      ({ State.reset with pc := 0xFFF } : State).schedule = [] ∧
      ({ State.reset with pc := 0xFFF } : State).paused = false ∧
      0xFFF ≤ ({ State.reset with pc := 0xFFF } : State).pc.toNat :=
  ⟨rfl, rfl, rfl, by decide⟩

theorem test_witness_EndedRunNeverChanges :
    State.reset.status = .running ∧
      ({ State.reset with status := .faulted .ioError } : State).status ≠ .running ∧
      ({ State.reset with status := .quit } : State).status ≠ .running := by decide

/-- TT5; and R313: a capture is allowed in any status, its write failing or not. -/
theorem test_ended_run_is_unchanged :
    sees (·.dt) (transition .timerTick
        { State.reset with status := .faulted .stackUnderflow, dt := 0x05 }) = some 0x05 ∧
      sees (·.status) (transition (.saveState false)
        { State.reset with status := .faulted .stackUnderflow }) =
          some (.faulted .stackUnderflow) := by decide

theorem test_witness_OnlyListedFaultsAndPcStays :
    State.reset.status = .running ∧
      (∃ t, exec .ret State.reset = .next t ∧ t.status = .faulted .stackUnderflow) :=
  ⟨rfl, _, rfl, rfl⟩

/-- The three faults of a draw: the sink at its first pixel, a pixel off the grid, a row beyond memory. -/
theorem test_witness_OnlyListedFaultsAndPcStays_draw :
    sees (·.status) (exec (.drw 0 1 1) { startAt 0x0300 [] [(0x300, 0x80)] with
        env := { Env.fresh with sinkFailsAfter := some 0 } }) = some (.faulted .subsystemError) ∧
      sees (·.status) (exec (.drw 0 1 1) (startAt 0x0300 [(0, 64)] [(0x300, 0x80)])) =
        some (.faulted (.outOfBounds (.pixel 64 0))) ∧
      sees (·.status) (exec (.drw 0 1 2) (startAt 0x0FFF [] [])) =
        some (.faulted (.outOfBounds (.address 0x1000))) := by decide

theorem test_witness_JumpToSelfRepeats :
    Fetches { State.reset with mem := [(0x200, 0x12)] } (encode (.jp 0x200)) ∧
      State.reset.pc = zext16 0x200 :=
  ⟨⟨rfl, rfl, .inl rfl, by decide, by decide⟩, by decide⟩

theorem test_witness_BootLoadsFontAndProgram :
    (List.replicate 3584 (0x12 : Byte)).length ≤ 3584 :=
  Nat.le_of_eq List.length_replicate

theorem test_witness_SysIsNoOp :
    0x00E1#16 &&& 0xF000 = 0x0000 ∧ 0x00E1#16 ≠ 0x00E0 ∧ 0x00E1#16 ≠ 0x00EE := by decide

theorem test_witness_IllegalWordIsNoOp :
    illegalWord 0x8128 = true ∧
      Fetches { State.reset with mem := [(0x200, 0x81), (0x201, 0x28)] } 0x8128 :=
  ⟨by decide, rfl, rfl, .inl rfl, by decide, by decide⟩

theorem test_witness_CallPushesReturnAddress :
    ({ State.reset with sp := 15 } : State).sp.toNat < 16 ∧
      16 ≤ ({ State.reset with sp := 16 } : State).sp.toNat := by
  decide

theorem test_witness_RetPopsNewestEntry :
    (0 < ({ State.reset with sp := 1 } : State).sp.toNat ∧
        ({ State.reset with sp := 1 } : State).sp.toNat ≤ 16) ∧
      (0 < ({ State.reset with sp := 16 } : State).sp.toNat ∧
        ({ State.reset with sp := 16 } : State).sp.toNat ≤ 16) ∧
      State.reset.sp = 0 ∧ 16 < ({ State.reset with sp := 17 } : State).sp.toNat := by
  decide

theorem test_witness_ReturnUndoesCall :
    ({ State.reset with sp := 15 } : State).sp.toNat < 16 ∧
      ∃ t, exec (.call 0x300) { State.reset with sp := 15 } = .next t :=
  ⟨by decide, _, rfl⟩

theorem test_witness_SkipsCompareAndAdvance :
    0x3FFF#16 &&& 0xF000 = 0x3000 ∧ 0x4FFF#16 &&& 0xF000 = 0x4000 ∧
      0x5FF0#16 &&& 0xF00F = 0x5000 ∧ 0x9FF0#16 &&& 0xF00F = 0x9000 ∧
      (0x5FF1#16 &&& 0xF000 = 0x5000 ∧ 0x5FF1#16 &&& 0x000F ≠ 0) ∧
      (0x9FFF#16 &&& 0xF000 = 0x9000 ∧ 0x9FFF#16 &&& 0x000F ≠ 0) := by
  decide

theorem test_witness_LoadsAndAddImmediate :
    0x6FFF#16 &&& 0xF000 = 0x6000 ∧ 0x7FFF#16 &&& 0xF000 = 0x7000 ∧
      0x8FF0#16 &&& 0xF00F = 0x8000 ∧ 0xAFFF#16 &&& 0xF000 = 0xA000 := by
  decide

theorem test_witness_RandomByteIsMasked :
    ({ Env.fresh with randomBytes := [0xA7] } : Env).randomBytes = 0xA7 :: [] := rfl

theorem test_witness_FlagWritersLeaveZeroOrOne :
    (∃ t, exec (.addReg 15 1) State.reset = .next t) ∧ (Instr.addReg 15 1).writesFlag = true ∧
      (∃ t, exec (.orReg 1 15) State.reset = .next t) ∧ (Instr.orReg 1 15).writesFlag = false ∧
      (Instr.orReg 1 15).names regF = false :=
  ⟨⟨_, rfl⟩, rfl, ⟨_, rfl⟩, rfl, by decide⟩

theorem test_witness_OnlyNamedRegistersChange :
    (∃ t, exec (.addReg 1 2) State.reset = .next t) ∧ (Instr.addReg 1 2).names 3 = false ∧
      (3 : Reg) ≠ regF ∧ (∃ t, exec (.ldVxMem 2) State.reset = .next t) ∧
      (Instr.ldVxMem 2).names 3 = false ∧ (Instr.ldVxMem 2).writesFlag = false :=
  ⟨⟨_, rfl⟩, by decide, by decide, ⟨_, rfl⟩, by decide, rfl⟩

theorem test_witness_OnlyCallAndRetMoveTheStack :
    (∃ t, exec .ret { State.reset with sp := 1 } = .next t) ∧ (∀ nnn, Instr.ret ≠ .call nnn) ∧
      (∃ t, exec .cls State.reset = .next t) ∧ (∀ nnn, Instr.cls ≠ .call nnn) ∧
      Instr.cls ≠ .ret :=
  ⟨⟨_, rfl⟩, fun _ => by simp, ⟨_, rfl⟩, fun _ => by simp, by simp⟩

theorem test_witness_EachUnitHasItsWriters :
    (∃ t, exec (.ldReg 1 2) State.reset = .next t) ∧ (∀ x, Instr.ldReg 1 2 ≠ .ldB x) ∧
      (∀ x, Instr.ldReg 1 2 ≠ .ldMemVx x) ∧ Instr.ldReg 1 2 ≠ .cls ∧
      (∀ x y n, Instr.ldReg 1 2 ≠ .drw x y n) ∧ (∀ nnn, Instr.ldReg 1 2 ≠ .ldI nnn) ∧
      (∀ x, Instr.ldReg 1 2 ≠ .addI x) ∧ (∀ x, Instr.ldReg 1 2 ≠ .ldF x) ∧
      (∀ x, Instr.ldReg 1 2 ≠ .ldDtVx x) ∧ (∀ x, Instr.ldReg 1 2 ≠ .ldStVx x) :=
  ⟨⟨_, rfl⟩, by simp, by simp, by simp, by simp, by simp, by simp, by simp, by simp, by simp⟩

theorem test_witness_NoInstructionWritesControlState :
    ∃ t, exec (.jp 0x300) State.reset = .next t := ⟨_, rfl⟩

theorem test_witness_LoadGlyphAddress :
    ((start [(1, 0x0F)]).readV 1).toNat ≤ 0x0F ∧ 0x0F < ((start [(1, 0x10)]).readV 1).toNat := by
  decide

theorem test_witness_StoreDecimalDigits :
    (startAt 0x0FFD [] []).I.toNat < 0x0FFE ∧ 0x0FFE ≤ (startAt 0x0FFE [] []).I.toNat := by decide

theorem test_witness_StoreRegisterRun : indexAddr (startAt 0x0FF0 [] []) (15 : Reg).val < 0x1000 := by
  decide

theorem test_witness_StoreRegisterRunFaultsPartWay :
    ((15 : Reg) ≤ 15 ∧ 0x1000 ≤ indexAddr (startAt 0x0FF1 [] []) (15 : Reg).val ∧
        ∀ i : Reg, i < 15 → indexAddr (startAt 0x0FF1 [] []) i.val < 0x1000) ∧
      ((0 : Reg) ≤ 0 ∧ 0x1000 ≤ indexAddr (startAt 0xFFFF [] []) (0 : Reg).val ∧
        ∀ i : Reg, i < 0 → indexAddr (startAt 0xFFFF [] []) i.val < 0x1000) := by
  decide

theorem test_witness_LoadRegisterRun : indexAddr (startAt 0x0FFF [] []) (0 : Reg).val < 0x1000 := by
  decide

theorem test_witness_LoadRegisterRunFaultsPartWay :
    (2 : Reg) ≤ 15 ∧ 0x1000 ≤ indexAddr (startAt 0x0FFE [] []) (2 : Reg).val ∧
      ∀ i : Reg, i < 2 → indexAddr (startAt 0x0FFE [] []) i.val < 0x1000 := by
  decide

/-- `D011` at the last column at which a full byte fits, its sprite byte at the last address. -/
def drawCorner : State := startAt 0x0FFF [(0, 56), (1, 31)] [(0xFFF, 0xFF)]

theorem sinkAccepts_of_none {s : State} (h : s.env.sinkFailsAfter = none) (k : Nat) :
    SinkAccepts s k := by
  intro b hb
  rw [h] at hb
  cases hb

/-- DR10: a sprite of no rows, `I` beyond memory. -/
theorem test_drw_no_rows :
    sees (fun t => (t.status, t.readV regF, t.pc)) (one 0xD010 (startAt 0x2000 [(regF, 0x09)] [])) =
      some (.running, 0x00, 0x202) := by decide

theorem test_witness_DrawFlipsCoveredPixels_no_rows :
    (∀ r, r < (0#4).toNat → (startAt 0x2000 [] []).I.toNat + r ≤ 0xFFF) ∧
      AllOnGrid (spritePixels (startAt 0x2000 [] []) 0 0 0x2000 (0#4).toNat) ∧
      SinkAccepts (startAt 0x2000 [] [])
        (spritePixels (startAt 0x2000 [] []) 0 0 0x2000 (0#4).toNat).length :=
  ⟨by decide, by unfold AllOnGrid; decide, sinkAccepts_of_none rfl _⟩

theorem test_witness_DrawTwiceRestoresDisplay_no_rows :
    (∀ r, r < (0#4).toNat → (startAt 0x2000 [] []).I.toNat + r ≤ 0xFFF) ∧
      SinkAccepts (startAt 0x2000 [] [])
        (2 * (spritePixels (startAt 0x2000 [] []) 0 0 0x2000 (0#4).toNat).length) ∧
      ∃ t, exec (.drw 0 1 0) (startAt 0x2000 [] []) = .next t ∧ t.readV 0 = 0 ∧ t.readV 1 = 0 :=
  ⟨by decide, sinkAccepts_of_none rfl _, _, rfl, by decide, by decide⟩

theorem test_witness_DrawFlipsCoveredPixels :
    (∀ r, r < (1#4).toNat → drawCorner.I.toNat + r ≤ 0xFFF) ∧
      AllOnGrid (spritePixels drawCorner (drawCorner.readV 0).toNat (drawCorner.readV 1).toNat
        drawCorner.I.toNat (1#4).toNat) ∧
      SinkAccepts drawCorner (spritePixels drawCorner (drawCorner.readV 0).toNat
        (drawCorner.readV 1).toNat drawCorner.I.toNat (1#4).toNat).length :=
  ⟨by decide, by unfold AllOnGrid; decide, sinkAccepts_of_none rfl _⟩

theorem test_witness_DrawTwiceRestoresDisplay :
    (∀ r, r < (1#4).toNat → drawCorner.I.toNat + r ≤ 0xFFF) ∧
      AllOnGrid (spritePixels drawCorner (drawCorner.readV 0).toNat (drawCorner.readV 1).toNat
        drawCorner.I.toNat (1#4).toNat) ∧
      SinkAccepts drawCorner (2 * (spritePixels drawCorner (drawCorner.readV 0).toNat
        (drawCorner.readV 1).toNat drawCorner.I.toNat (1#4).toNat).length) ∧
      ∃ t, exec (.drw 0 1 1) drawCorner = .next t ∧ t.readV 0 = drawCorner.readV 0 ∧
        t.readV 1 = drawCorner.readV 1 :=
  ⟨by decide, by unfold AllOnGrid; decide, sinkAccepts_of_none rfl _, _, rfl, by decide,
    by decide⟩

/-- `D012` whose first row has a bit off the grid and whose second row lies beyond memory: the bit is
met first (R283). -/
def drawOff : State := startAt 0x0FFF [(0, 63)] [(0xFFF, 0xC0)]

theorem test_witness_DrawOffGridFaults :
    1 ≤ (2#4).toNat ∧ drawOff.I.toNat + 1 ≤ 0x1000 ∧
      spritePixels drawOff (drawOff.readV 0).toNat (drawOff.readV 1).toNat drawOff.I.toNat 1 =
        [(63, 0)] ++ (64, 0) :: [] ∧
      AllOnGrid [(63, 0)] ∧ (63 < (64, 0).1 ∨ 31 < (64, 0).2) ∧
      SinkAccepts drawOff [(63, 0)].length :=
  ⟨by decide, by decide, by decide, by unfold AllOnGrid; decide, by decide,
    sinkAccepts_of_none rfl _⟩

theorem test_witness_DrawBeyondMemoryFaults :
    (1 < (2#4).toNat ∧ 0xFFF < drawCorner.I.toNat + 1 ∧
        (∀ r, r < 1 → drawCorner.I.toNat + r ≤ 0xFFF) ∧
        AllOnGrid (spritePixels drawCorner (drawCorner.readV 0).toNat (drawCorner.readV 1).toNat
          drawCorner.I.toNat 1) ∧
        SinkAccepts drawCorner (spritePixels drawCorner (drawCorner.readV 0).toNat
          (drawCorner.readV 1).toNat drawCorner.I.toNat 1).length) ∧
      (0 < (1#4).toNat ∧ 0xFFF < (startAt 0x1000 [] []).I.toNat + 0 ∧
        (∀ r, r < 0 → (startAt 0x1000 [] []).I.toNat + r ≤ 0xFFF) ∧
        AllOnGrid (spritePixels (startAt 0x1000 [] []) 0 0 0x1000 0) ∧
        SinkAccepts (startAt 0x1000 [] []) 0) :=
  ⟨⟨by decide, by decide, by decide, by unfold AllOnGrid; decide, sinkAccepts_of_none rfl _⟩,
    by decide, by decide, by decide, by unfold AllOnGrid; decide, sinkAccepts_of_none rfl _⟩

theorem test_witness_DrawSinkFailureFaults :
    1 ≤ (2#4).toNat ∧ drawCorner.I.toNat + 1 ≤ 0x1000 ∧
      spritePixels drawCorner (drawCorner.readV 0).toNat (drawCorner.readV 1).toNat
        drawCorner.I.toNat 1 =
          [(56, 31)] ++ (57, 31) :: [(58, 31), (59, 31), (60, 31), (61, 31), (62, 31), (63, 31)] ∧
      AllOnGrid [(56, 31)] ∧ (57 < 64 ∧ 31 < 32) ∧
      ({ drawCorner with env := { Env.fresh with sinkFailsAfter := some 1 } } :
        State).env.sinkFailsAfter = some [(56, 31)].length :=
  ⟨by decide, by decide, by decide, by unfold AllOnGrid; decide, by decide, rfl⟩

theorem test_witness_KeySkipsFollowTheKey :
    ({ Env.fresh with keyDowns := [true] } : Env).keyDowns = true :: [] ∧
      Env.fresh.keyDowns = [] :=
  ⟨rfl, rfl⟩

theorem test_witness_KeyWaitEndsAsTheEnvironmentSays :
    ({ Env.fresh with keyWaits := [.key 0xFF] } : Env).keyWaits = .key 0xFF :: [] ∧
      Env.fresh.keyWaits = [] ∧
      ({ Env.fresh with keyWaits := [.quit] } : Env).keyWaits = .quit :: [] ∧
      ({ Env.fresh with keyWaits := [.never] } : Env).keyWaits = .never :: [] :=
  ⟨rfl, rfl, rfl, rfl⟩

theorem test_witness_TimerGetAndSet :
    0xFF07#16 &&& 0xF0FF = 0xF007 ∧ 0xFF15#16 &&& 0xF0FF = 0xF015 ∧
      0xFF18#16 &&& 0xF0FF = 0xF018 := by
  decide

theorem test_witness_TimerReachesZeroAfterItsTicks :
    ({ State.reset with dt := 0xFF, schedule := List.replicate 255 .timerTick } : State).status =
        .running ∧
      ({ State.reset with dt := 0xFF, schedule := List.replicate 255 .timerTick } :
        State).schedule = List.replicate 255 .timerTick :=
  ⟨rfl, rfl⟩

/-- A machine whose clocks are started, the timer clock's deadline at 16667 microseconds and the CPU
clock's at 2000. -/
def clocksStarted : State :=
  { State.reset with
    cpuClock := { frequency := 500, tickCount := 0, nextTick := some 2000 }
    timerClock := { frequency := 60, tickCount := 0, nextTick := some 16667 } }

theorem test_witness_PollTicksAtMostOnce :
    0 < 60 ∧ clocksStarted.status = .running ∧
      (clocksStarted.timerClock.nextTick = some 16667 ∧ 16667 ≤ 16667 ∧ 16666 < 16667) ∧
      (clocksStarted.cpuClock.nextTick = some 2000 ∧ 2000 ≤ 2000 ∧ 1999 < 2000) :=
  ⟨by decide, rfl, ⟨rfl, by decide, by decide⟩, rfl, by decide, by decide⟩

/-- The clocks start each at its own time: `start()` at 0 of a 500 Hz clock sets the deadline 2000 (R291). -/
theorem test_startCpuClock :
    sees (fun t => (t.cpuClock.nextTick, t.timerClock.nextTick))
      (transition (.startCpuClock 0) State.reset) = some (some 2000, none) := by decide

theorem test_witness_LoadFontIsIdempotent :
    Config.font.length = 80 ∧ State.reset.mem.wf = true ∧ State.reset.status = .running := by decide

theorem test_witness_LoadProgramCopiesVerbatim :
    State.reset.status = .running ∧ (List.replicate 3584 (0xFF : Byte)).length ≤ 3584 ∧
      3584 < (List.replicate 3585 (0xFF : Byte)).length :=
  ⟨rfl, Nat.le_of_eq List.length_replicate, by rw [List.length_replicate]; decide⟩

theorem test_witness_MemoryResetKeepsFont : State.reset.status = .running := rfl

theorem test_witness_RestoreOfCapture :
    State.reset.mem.wf = true ∧ State.reset.status = .running ∧
      SinkAccepts { State.reset with env := { Env.fresh with sinkFailsAfter := some 2048 } } 2048 ∧
      (({ State.reset with env := { Env.fresh with sinkFailsAfter := some 2047 } } :
        State).env.sinkFailsAfter = some 2047 ∧ 2047 < 2048) := by
  refine ⟨rfl, rfl, fun b hb => ?_, rfl, by decide⟩
  cases hb
  exact Nat.le_refl _

/-- An image whose body is zeros, with given tags. -/
def image (header footer : List Byte) : List Byte := header ++ List.replicate 4407 0 ++ footer

theorem image_length (h f : List Byte) : (image h f).length = h.length + 4407 + f.length := by
  simp only [image, List.length_append, List.length_replicate]

theorem image_take {h : List Byte} (hl : h.length = 4) (f : List Byte) : (image h f).take 4 = h := by
  unfold image
  rw [List.append_assoc, List.take_left' hl]

theorem image_drop {h : List Byte} (hl : h.length = 4) (f : List Byte) :
    (image h f).drop 4411 = f := by
  unfold image
  exact List.drop_left' (by rw [List.length_append, List.length_replicate, hl])

theorem test_witness_CaptureOfRestore :
    (image headerTag footerTag).length = 4415 ∧
      (image headerTag footerTag).take 4 = [0x4B, 0x38, 0x45, 0x00] ∧
      (image headerTag footerTag).drop 4411 = [0x46, 0x49, 0x4E, 0x00] :=
  ⟨image_length _ _, image_take rfl _, image_drop rfl _⟩

theorem test_witness_FailedRestoreChangesNothing :
    State.reset.status = .running ∧ ([] : List Byte).length < 4415 ∧
      (4415 ≤ (image footerTag footerTag).length ∧
        (image footerTag footerTag).take 4 ≠ [0x4B, 0x38, 0x45, 0x00]) ∧
      (4415 ≤ (image headerTag headerTag).length ∧
        (image headerTag headerTag).take 4 = [0x4B, 0x38, 0x45, 0x00] ∧
        ((image headerTag headerTag).drop 4411).take 4 ≠ [0x46, 0x49, 0x4E, 0x00]) := by
  refine ⟨rfl, by decide, ⟨Nat.le_of_eq (image_length footerTag footerTag).symm, ?_⟩,
    Nat.le_of_eq (image_length headerTag headerTag).symm, image_take rfl _, ?_⟩
  · rw [image_take (h := footerTag) rfl]
    decide
  · rw [image_drop (h := headerTag) rfl]
    decide

theorem test_witness_StepKeepsMemoryInvariant :
    lastFetch.mem.wf = true ∧ ({ lastFetch with programLength := 3584 } : State).programLength ≤ 3584 ∧
      ∃ t, step { lastFetch with programLength := 3584 } = .next t :=
  ⟨by decide, Nat.le_refl _, _, rfl⟩

theorem test_witness_StepKeepsStackBound :
    ({ State.reset with sp := 16, schedule := [.timerTick] } : State).sp.toNat ≤ 16 ∧
      (∀ source, Event.restoreState source ∉
        ({ State.reset with sp := 16, schedule := [.timerTick] } : State).schedule) ∧
      ∃ t, step { State.reset with sp := 16, schedule := [.timerTick] } = .next t :=
  ⟨by decide, by simp, _, rfl⟩

end Sys2Proof.Tests
end

section
/-! PROOFS. The obligations of 10_state.md. `Effect` says once what an instruction can do to the state,
`EventEffect` what a transition can do; every statement of this family is read off one of the two. -/

namespace Sys2Proof.Machine

/-! ### What an instruction can do

`Effect s i t` bounds the states `t` in which instruction `i` can leave `s`, a fault's state included
(R124): each constructor names the instructions it stands for and lists every field that may differ.
`exec_effect` ties it to the model. -/

/-- The states an instruction can leave `s` in. -/
inductive Effect (s : State) : Instr → State → Prop
  /-- Registers, and no other unit. -/
  | registers {i : Instr} {t : State}
      (frame : { t with V := s.V, pc := s.pc, status := s.status, env := s.env } = s)
      (others : ∀ r, i.names r = false → (i.writesFlag = false ∨ r ≠ regF) → t.readV r = s.readV r)
      (flag : i.writesFlag = true → ZeroOrOne t) : Effect s i t
  /-- A completed `CALL` (R128). -/
  | call (nnn : Addr) (stack : Vector Word 16) (pc : Word) (room : s.sp.toNat < 16) :
      Effect s (.call nnn) { s with stack := stack, sp := s.sp + 1, pc := pc }
  /-- A completed `RET` (R126). -/
  | ret (pc : Word) (used : s.sp ≠ 0) : Effect s .ret { s with sp := s.sp - 1, pc := pc }
  /-- The cleared display (R206). -/
  | cls (pc : Word) : Effect s .cls { s with pix := Grid.clear, pc := pc }
  /-- A draw, to its end or to its fault (R207). -/
  | drw (x y : Reg) (n : Nibble) {t : State}
      (frame : { t with V := s.V, pix := s.pix, env := s.env, pc := s.pc, status := s.status } = s)
      (others : ∀ r, r ≠ regF → t.readV r = s.readV r)
      (flag : ZeroOrOne t) : Effect s (.drw x y n) t
  /-- R180. -/
  | ldI (nnn : Addr) (I pc : Word) : Effect s (.ldI nnn) { s with I := I, pc := pc }
  /-- R181. -/
  | addI (x : Reg) (I pc : Word) : Effect s (.addI x) { s with I := I, pc := pc }
  /-- A completed `LD F, Vx` (R182). -/
  | ldF (x : Reg) (I pc : Word) : Effect s (.ldF x) { s with I := I, pc := pc }
  /-- R225. -/
  | ldDtVx (x : Reg) (dt : Byte) (pc : Word) : Effect s (.ldDtVx x) { s with dt := dt, pc := pc }
  /-- R226. -/
  | ldStVx (x : Reg) (st : Byte) (pc : Word) : Effect s (.ldStVx x) { s with st := st, pc := pc }
  /-- A completed `LD B, Vx` (R183). -/
  | ldB (x : Reg) (mem : Memory) (pc : Word) (wf : s.mem.wf = true → mem.wf = true) :
      Effect s (.ldB x) { s with mem := mem, pc := pc }
  /-- A run of stores, to its end or to its fault (R184). -/
  | ldMemVx (x : Reg) (mem : Memory) (pc : Word) (status : RunStatus)
      (wf : s.mem.wf = true → mem.wf = true) :
      Effect s (.ldMemVx x) { s with mem := mem, pc := pc, status := status }

section
variable {s : State} {i : Instr}

/-- No unit is written: an instruction that only moves `pc`, or a fault before the first write. -/
theorem Effect.unchanged (hi : i.writesFlag = false) (pc : Word) (status : RunStatus) (env : Env) :
    Effect s i { s with pc := pc, status := status, env := env } :=
  .registers rfl (fun _ _ _ => rfl) (by simp [hi])

/-- One register that the instruction names. -/
theorem Effect.named {x : Reg} (hi : i.writesFlag = false) (hx : i.names x = true) (v : Byte)
    (pc : Word) (env : Env) : Effect s i { s with V := s.V.set x v, pc := pc, env := env } := by
  refine .registers rfl (fun r hr _ => ?_) (by simp [hi])
  have hne : r ≠ x := by
    rintro rfl
    simp [hx] at hr
  exact readV_writeV_of_ne s hne v

theorem flagByte_zero_or_one (b : Bool) : flagByte b = 0x00 ∨ flagByte b = 0x01 := by
  cases b
  · exact .inl rfl
  · exact .inr rfl

/-- One register that the instruction names, and then the flag (R163). -/
theorem Effect.resultAndFlag {x : Reg} (hi : i.writesFlag = true) (hx : i.names x = true) (v : Byte)
    (b : Bool) : Effect s i (s.writeResultAndFlag x v b).advance := by
  refine .registers rfl (fun r hr hf => ?_) fun _ => ?_
  · have hne : r ≠ x := by
      rintro rfl
      simp [hx] at hr
    have hrF : r ≠ regF := by simpa [hi] using hf
    simp [readV_writeResultAndFlag, hne, hrF]
  · simpa [ZeroOrOne, readV_writeResultAndFlag] using flagByte_zero_or_one b

/-- What the rows of a sprite leave, before `pc` is advanced or the fault is latched. -/
theorem Effect.of_drawFrame {u : State} (hu : DrawFrame (s.writeV regF 0) u) (hf : ZeroOrOne u)
    (x y : Reg) (n : Nibble) (pc : Word) (status : RunStatus) :
    Effect s (.drw x y n) { u with pc := pc, status := status } := by
  refine .drw x y n ?_ (fun r hr => ?_) hf
  · exact congrArg (fun v : State =>
      { v with V := s.V, pix := s.pix, env := s.env, pc := s.pc, status := s.status }) hu.1
  · exact (hu.2 r hr).trans (readV_writeV_of_ne s hr 0)

end

/-! ### The instructions with more than one ending -/

section
variable {s t : State}

theorem askRandomByte_eq (s : State) : ∃ r env, s.askRandomByte = (r, s.setEnv env) := by
  obtain ⟨b, rest, -, h⟩ | ⟨-, h⟩ := askRandomByte_cases s <;> exact ⟨_, _, h⟩

theorem askKeyDown_eq (s : State) (k : Byte) : ∃ down env, s.askKeyDown k = (down, s.setEnv env) := by
  obtain ⟨b, rest, -, h⟩ | ⟨-, h⟩ := askKeyDown_cases s k <;> exact ⟨_, _, h⟩

theorem askWaitKey_eq (s : State) : ∃ answer env, s.askWaitKey = (answer, s.setEnv env) := by
  obtain ⟨a, rest, -, h⟩ | ⟨-, h⟩ := askWaitKey_cases s <;> exact ⟨_, _, h⟩

theorem skipWhen_eq (taken : Bool) (s : State) : ∃ pc, skipWhen taken s = .next (s.setPc pc) := by
  cases taken
  · exact ⟨s.pc + 2, rfl⟩
  · exact ⟨s.pc + 4, rfl⟩

/-- A conditional skip writes no unit, whatever it asked the environment. -/
theorem effect_skipWhen {i : Instr} (hi : i.writesFlag = false) {taken : Bool} {env : Env}
    (h : skipWhen taken (s.setEnv env) = .next t) : Effect s i t := by
  obtain ⟨pc, hpc⟩ := skipWhen_eq taken (s.setEnv env)
  cases hpc.symm.trans h
  exact .unchanged hi pc s.status env

theorem execRnd_effect {x : Reg} {kk : Byte} (h : execRnd x kk s = .next t) :
    Effect s (.rnd x kk) t := by
  obtain ⟨r, env, henv⟩ := askRandomByte_eq s
  unfold execRnd at h
  rw [henv] at h
  cases h
  exact .named rfl (by simp [Instr.names]) _ _ env

theorem execSkp_effect {x : Reg} (h : execSkp x s = .next t) : Effect s (.skp x) t := by
  obtain ⟨down, env, henv⟩ := askKeyDown_eq s (s.readV x)
  unfold execSkp at h
  rw [henv] at h
  exact effect_skipWhen rfl h

theorem execSknp_effect {x : Reg} (h : execSknp x s = .next t) : Effect s (.sknp x) t := by
  obtain ⟨down, env, henv⟩ := askKeyDown_eq s (s.readV x)
  unfold execSknp at h
  rw [henv] at h
  exact effect_skipWhen rfl h

theorem execLdVxK_effect {x : Reg} (h : execLdVxK x s = .next t) : Effect s (.ldVxK x) t := by
  obtain ⟨answer, env, henv⟩ := askWaitKey_eq s
  unfold execLdVxK at h
  rw [henv] at h
  cases answer with
  | key k => cases h; exact .named rfl (by simp [Instr.names]) k _ env
  | quit => cases h; exact .unchanged rfl s.pc .quit env
  | never => cases h

theorem execRet_effect (h : execRet s = .next t) : Effect s .ret t := by
  unfold execRet at h
  split at h
  · cases h
    exact .unchanged rfl s.pc _ s.env
  · next hsp =>
    split at h
    · cases h
      exact .unchanged rfl s.pc _ s.env
    · cases h
      exact .ret _ hsp

theorem execCall_effect {nnn : Addr} (h : execCall nnn s = .next t) : Effect s (.call nnn) t := by
  unfold execCall at h
  split at h
  · cases h
    exact .unchanged rfl s.pc _ s.env
  · next hsp =>
    cases h
    exact .call nnn _ _ (Nat.lt_of_not_le hsp)

theorem execLdF_effect {x : Reg} (h : execLdF x s = .next t) : Effect s (.ldF x) t := by
  unfold execLdF at h
  dsimp only at h
  split at h
  · cases h
    exact .ldF x _ _
  · cases h
    exact .unchanged rfl s.pc _ s.env

theorem execLdB_effect {x : Reg} (h : execLdB x s = .next t) : Effect s (.ldB x) t := by
  unfold execLdB at h
  split at h
  · cases h
    exact .unchanged rfl s.pc _ s.env
  · next hI =>
    have inside : ∀ k ≤ 2, indexAddr s k < 4096 := by
      intro k hk
      simp only [Config.programEnd] at hI
      unfold indexAddr
      omega
    rw [storeDigits_ok _ s (inside 2 (by decide))] at h
    cases h
    refine .ldB x _ _ fun hw => ?_
    exact Memory.wf_write (Memory.wf_write (Memory.wf_write hw (inside 0 (by decide)) _)
      (inside 1 (by decide)) _) (inside 2 (by decide)) _

theorem execLdMemVx_effect {x : Reg} (h : execLdMemVx x s = .next t) :
    Effect s (.ldMemVx x) t := by
  unfold execLdMemVx at h
  obtain ⟨m, hw, hs | ⟨-, i, -, -, -, -, hs⟩⟩ := storeRegs_cases (regRun x) s
  · rw [hs] at h
    cases h
    exact .ldMemVx x m _ s.status hw
  · rw [hs] at h
    cases h
    exact .ldMemVx x m s.pc _ hw

theorem execLdVxMem_effect {x : Reg} (h : execLdVxMem x s = .next t) :
    Effect s (.ldVxMem x) t := by
  unfold execLdVxMem at h
  obtain ⟨u, hothers, hframe, hu⟩ := loadRegs_cases (regRun x) s
  have others : ∀ r, (Instr.ldVxMem x).names r = false → u.readV r = s.readV r := fun r hr =>
    hothers r fun hm => of_decide_eq_false hr ((mem_regRun x r).1 hm)
  have frame : { u with V := s.V, pc := s.pc, status := s.status, env := s.env } = s :=
    congrArg (fun v : State => { v with pc := s.pc, status := s.status, env := s.env }) hframe
  obtain hu | ⟨-, i, -, -, -, -, hu⟩ := hu
  all_goals
    rw [hu] at h
    cases h
    exact .registers frame (fun r hr _ => others r hr) (by simp [Instr.writesFlag])

theorem execDrw_effect {x y : Reg} {n : Nibble} (h : execDrw x y n s = .next t) :
    Effect s (.drw x y n) t := by
  unfold execDrw at h
  have start : ZeroOrOne (s.writeV regF 0) := .inl (readV_writeV_same s regF 0)
  obtain ⟨hok, herr⟩ := drawRows_flag (s.readV x).toNat (s.readV y).toNat s.I.toNat n.toNat _ start
  obtain ⟨u, hu, hframe⟩ | ⟨f, u, hu, hframe, -⟩ :=
    drawRows_cases (s.readV x).toNat (s.readV y).toNat s.I.toNat n.toNat (s.writeV regF 0)
  · simp only [hu] at h
    cases h
    exact .of_drawFrame hframe (hok u hu) x y n _ u.status
  · simp only [hu] at h
    cases h
    exact .of_drawFrame hframe (herr f u hu) x y n u.pc _

end

/-- What an instruction can do: every execution that gives a next state has one of the effects. -/
theorem exec_effect {i : Instr} {s t : State} (h : exec i s = .next t) : Effect s i t := by
  cases i with
  | cls => cases h; exact .cls _
  | ret => exact execRet_effect h
  | call nnn => exact execCall_effect h
  | sys | jp | jpV0 | illegal => cases h; exact .unchanged rfl _ s.status s.env
  | seImm | sneImm | seReg | sneReg => exact effect_skipWhen (env := s.env) rfl h
  | ldImm x | addImm x | ldReg x | orReg x | andReg x | xorReg x | ldVxDt x =>
    cases h
    exact .named rfl (by simp [Instr.names]) _ _ s.env
  | addReg x | subReg x | shr x | subn x | shl x =>
    cases h
    exact .resultAndFlag rfl (by simp [Instr.names]) _ _
  | rnd => exact execRnd_effect h
  | drw => exact execDrw_effect h
  | skp => exact execSkp_effect h
  | sknp => exact execSknp_effect h
  | ldVxK => exact execLdVxK_effect h
  | ldI nnn => cases h; exact .ldI nnn _ _
  | addI x => cases h; exact .addI x _ _
  | ldF => exact execLdF_effect h
  | ldDtVx x => cases h; exact .ldDtVx x _ _
  | ldStVx x => cases h; exact .ldStVx x _ _
  | ldB => exact execLdB_effect h
  | ldMemVx => exact execLdMemVx_effect h
  | ldVxMem => exact execLdVxMem_effect h

/-! ### What each unit keeps -/

namespace Effect

variable {s t : State} {i : Instr}

theorem readV_eq (h : Effect s i t) {r : Reg} (hr : i.names r = false)
    (hf : i.writesFlag = false ∨ r ≠ regF) : t.readV r = s.readV r := by
  cases h with
  | registers _ others _ => exact others r hr hf
  | drw x y n _ others _ => exact others r (hf.resolve_left (by simp [Instr.writesFlag]))
  | call | ret | cls | ldI | addI | ldF | ldDtVx | ldStVx | ldB | ldMemVx => rfl

theorem zeroOrOne (h : Effect s i t) (hi : i.writesFlag = true) : ZeroOrOne t := by
  cases h with
  | registers _ _ flag => exact flag hi
  | drw x y n _ _ flag => exact flag
  | call | ret | cls | ldI | addI | ldF | ldDtVx | ldStVx | ldB | ldMemVx => cases hi

theorem stack_eq (h : Effect s i t) (hi : ∀ nnn, i ≠ .call nnn) : t.stack = s.stack := by
  cases h with
  | registers frame | drw _ _ _ frame => exact (congrArg State.stack frame :)
  | call nnn => exact absurd rfl (hi nnn)
  | ret | cls | ldI | addI | ldF | ldDtVx | ldStVx | ldB | ldMemVx => rfl

theorem sp_eq (h : Effect s i t) (hc : ∀ nnn, i ≠ .call nnn) (hr : i ≠ .ret) : t.sp = s.sp := by
  cases h with
  | registers frame | drw _ _ _ frame => exact (congrArg State.sp frame :)
  | call nnn => exact absurd rfl (hc nnn)
  | ret => exact absurd rfl hr
  | cls | ldI | addI | ldF | ldDtVx | ldStVx | ldB | ldMemVx => rfl

theorem mem_eq (h : Effect s i t) (hb : ∀ x, i ≠ .ldB x) (hm : ∀ x, i ≠ .ldMemVx x) :
    t.mem = s.mem := by
  cases h with
  | registers frame | drw _ _ _ frame => exact (congrArg State.mem frame :)
  | ldB x => exact absurd rfl (hb x)
  | ldMemVx x => exact absurd rfl (hm x)
  | call | ret | cls | ldI | addI | ldF | ldDtVx | ldStVx => rfl

theorem pix_eq (h : Effect s i t) (hc : i ≠ .cls) (hd : ∀ x y n, i ≠ .drw x y n) :
    t.pix = s.pix := by
  cases h with
  | registers frame => exact (congrArg State.pix frame :)
  | cls => exact absurd rfl hc
  | drw x y n => exact absurd rfl (hd x y n)
  | call | ret | ldI | addI | ldF | ldDtVx | ldStVx | ldB | ldMemVx => rfl

theorem I_eq (h : Effect s i t) (hl : ∀ nnn, i ≠ .ldI nnn) (ha : ∀ x, i ≠ .addI x)
    (hf : ∀ x, i ≠ .ldF x) : t.I = s.I := by
  cases h with
  | registers frame | drw _ _ _ frame => exact (congrArg State.I frame :)
  | ldI nnn => exact absurd rfl (hl nnn)
  | addI x => exact absurd rfl (ha x)
  | ldF x => exact absurd rfl (hf x)
  | call | ret | cls | ldDtVx | ldStVx | ldB | ldMemVx => rfl

theorem dt_eq (h : Effect s i t) (hd : ∀ x, i ≠ .ldDtVx x) : t.dt = s.dt := by
  cases h with
  | registers frame | drw _ _ _ frame => exact (congrArg State.dt frame :)
  | ldDtVx x => exact absurd rfl (hd x)
  | call | ret | cls | ldI | addI | ldF | ldStVx | ldB | ldMemVx => rfl

theorem st_eq (h : Effect s i t) (hs : ∀ x, i ≠ .ldStVx x) : t.st = s.st := by
  cases h with
  | registers frame | drw _ _ _ frame => exact (congrArg State.st frame :)
  | ldStVx x => exact absurd rfl (hs x)
  | call | ret | cls | ldI | addI | ldF | ldDtVx | ldB | ldMemVx => rfl

/-- The fields that no instruction writes, together: what differs is among the other ones. -/
theorem control_eq (h : Effect s i t) :
    { t with
      V := s.V, I := s.I, dt := s.dt, st := s.st, pc := s.pc, sp := s.sp, stack := s.stack,
      mem := s.mem, pix := s.pix, status := s.status, env := s.env } = s := by
  cases h with
  | registers frame | drw _ _ _ frame =>
    exact congrArg (fun v : State =>
      { v with
        V := s.V, I := s.I, dt := s.dt, st := s.st, pc := s.pc, sp := s.sp, stack := s.stack,
        mem := s.mem, pix := s.pix, status := s.status, env := s.env }) frame
  | call | ret | cls | ldI | addI | ldF | ldDtVx | ldStVx | ldB | ldMemVx => rfl

theorem mem_wf (h : Effect s i t) (hw : s.mem.wf = true) : t.mem.wf = true := by
  cases h with
  | registers frame | drw _ _ _ frame =>
    have same : t.mem = s.mem := (congrArg State.mem frame :)
    rwa [same]
  | ldB x m pc wf => exact wf hw
  | ldMemVx x m pc status wf => exact wf hw
  | call | ret | cls | ldI | addI | ldF | ldDtVx | ldStVx => exact hw

/-- `CALL` pushes only below 16 entries and `RET` pops only from a stack in use (R126, R128). -/
theorem sp_le (h : Effect s i t) (hsp : s.sp.toNat ≤ 16) : t.sp.toNat ≤ 16 := by
  cases h with
  | registers frame | drw _ _ _ frame =>
    have same : t.sp = s.sp := (congrArg State.sp frame :)
    rwa [same]
  | call nnn stack pc room =>
    show (s.sp + 1).toNat ≤ 16
    bv_omega
  | ret pc used =>
    show (s.sp - 1).toNat ≤ 16
    bv_omega
  | cls | ldI | addI | ldF | ldDtVx | ldStVx | ldB | ldMemVx => exact hsp

end Effect

/-! ### Who writes what -/

/-- Settles O27: the flag writers leave `Effect`'s flag, and no other instruction changes an unnamed
register. -/
theorem flagWritersLeaveZeroOrOne : Obligations.FlagWritersLeaveZeroOrOne := fun _ _ _ _ h =>
  ⟨(exec_effect h).zeroOrOne, fun hf hn => (exec_effect h).readV_eq hn (.inl hf)⟩

/-- Settles O28: the register frame of `Effect`. -/
theorem onlyNamedRegistersChange : Obligations.OnlyNamedRegistersChange := fun _ _ _ _ h hn hf =>
  (exec_effect h).readV_eq hn hf

/-- Settles O29: the stack and `sp` under `Effect`. -/
theorem onlyCallAndRetMoveTheStack : Obligations.OnlyCallAndRetMoveTheStack := fun _ _ _ h hc =>
  ⟨(exec_effect h).stack_eq hc, (exec_effect h).sp_eq hc⟩

/-- Settles O30: memory, display, `I` and the timers under `Effect`. -/
theorem eachUnitHasItsWriters : Obligations.EachUnitHasItsWriters := fun _ _ _ h =>
  ⟨(exec_effect h).mem_eq, (exec_effect h).pix_eq, (exec_effect h).I_eq, (exec_effect h).dt_eq,
    (exec_effect h).st_eq⟩

/-- Settles O31: each field is read off the frame that every instruction keeps. -/
theorem noInstructionWritesControlState : Obligations.NoInstructionWritesControlState := by
  intro i s t h
  have frame := (exec_effect h).control_eq
  exact ⟨(congrArg State.paused frame :), (congrArg State.singleStep frame :),
    (congrArg State.opcode frame :), (congrArg State.programLength frame :),
    (congrArg State.cpuClock frame :), (congrArg State.timerClock frame :),
    (congrArg State.schedule frame :)⟩

/-! ### What a transition can do

`EventEffect s e t` bounds the states `t` to which the transition `e` can lead from `s` (R313), a failed
host operation's state and an ended run's included. `transition_effect` ties it to the model. -/

/-- The states a transition can lead to from `s`. -/
inductive EventEffect (s : State) : Event → State → Prop
  /-- Timers, control state, clocks, `status`; or nothing at all. -/
  | control (e : Event) (dt st : Byte) (paused singleStep : Bool) (status : RunStatus)
      (cpuClock timerClock : Clock) :
      EventEffect s e
        { s with
          dt := dt, st := st, paused := paused, singleStep := singleStep, status := status,
          cpuClock := cpuClock, timerClock := timerClock }
  /-- A step past the gate and the fetch, after the poll that asked for it where one did. -/
  | executes (e : Event) (i : Instr) (w : Word) (cpuClock : Clock) {t : State}
      (run : exec i { s with cpuClock := cpuClock, singleStep := false, opcode := w } = .next t) :
      EventEffect s e t
  /-- A loader operation (R77 to R79). -/
  | loads (e : Event) (mem : Memory) (n : Nat) (wf : s.mem.wf = true → mem.wf = true)
      (bound : s.programLength ≤ 3584 → n ≤ 3584) :
      EventEffect s e { s with mem := mem, programLength := n }
  /-- A committed restore, its sink having failed or not (R247, R253). -/
  | restore (source : Option (List Byte)) (u : State) (status : RunStatus) (env : Env)
      (committed : restore source s = .ok u) :
      EventEffect s (.restoreState source) { u with status := status, env := env }

section
variable {s t : State}

/-- A CPU step, asked for by a tick or by a poll that has moved the CPU clock on. -/
theorem cpuStep_effect {c : Clock} (e : Event) (h : cpuStep { s with cpuClock := c } = .next t) :
    EventEffect s e t := by
  obtain ⟨-, hg⟩ | ⟨-, -, hf⟩ | ⟨-, -, w, hx⟩ := cpuStep_cases { s with cpuClock := c }
  · cases hg.symm.trans h
    exact .control e s.dt s.st s.paused s.singleStep s.status c s.timerClock
  · cases hf.symm.trans h
    exact .control e s.dt s.st s.paused false _ c s.timerClock
  · exact .executes e _ w c (hx.symm.trans h)

theorem fault_effect (e : Event) (f : FaultCause) : EventEffect s e (s.raise f) :=
  .control e s.dt s.st s.paused s.singleStep (.faulted f) s.cpuClock s.timerClock

theorem loadFont_effect (e : Event) : EventEffect s e (loadFont Config.font s) :=
  .loads e _ s.programLength (fun hw => Memory.wf_writeBytes hw (by decide)) id

theorem memoryReset_effect (e : Event) : EventEffect s e (memoryReset s) :=
  .loads e _ 0 (fun hw => Memory.wf_filter hw _) fun _ => Nat.zero_le _

theorem loadProgram_effect (e : Event) {source : Option (List Byte)}
    (h : hostResult s (loadProgram source s) = .next t) : EventEffect s e t := by
  unfold loadProgram at h
  split at h
  · cases h
    exact fault_effect e .ioError
  · next bytes =>
    split at h
    · cases h
      exact fault_effect e _
    · next hlen =>
      have bound : bytes.length ≤ 3584 := Nat.le_of_not_lt hlen
      cases h
      refine .loads e _ bytes.length (fun hw => Memory.wf_writeBytes hw ?_) fun _ => bound
      simp only [Config.programStart, Config.memSize]
      omega

/-- A restore that succeeds has committed an image. -/
theorem restore_ok {source : Option (List Byte)} {u : State} (h : restore source s = .ok u) :
    ∃ image, u = commitImage image s := by
  unfold restore at h
  split at h
  · cases h
  · split at h
    · cases h
    · dsimp only at h
      split at h
      · cases h
      · exact ⟨_, (Except.ok.inj h).symm⟩

/-- Whatever the image holds, its memory is canonical, and the loader's count and the schedule are not
part of it (R241, R247). -/
theorem restore_keeps {source : Option (List Byte)} {u : State} (h : restore source s = .ok u) :
    u.mem.wf = true ∧ u.programLength = s.programLength ∧ u.schedule = s.schedule := by
  obtain ⟨image, rfl⟩ := restore_ok h
  exact ⟨Memory.wf_ofBytes (List.length_take_le ..), by simp only [commitImage],
    by simp only [commitImage]⟩

theorem restoreEvent_effect {source : Option (List Byte)} (h : restoreEvent source s = .next t) :
    EventEffect s (.restoreState source) t := by
  unfold restoreEvent at h
  split at h
  · next f _ =>
    cases h
    exact fault_effect _ f
  · next u hu =>
    obtain ⟨-, hn⟩ | ⟨k, -, -, hn⟩ := notifyAllPixels_cases u
    all_goals
      rw [hn] at h
      cases h
      exact .restore source u _ _ hu

theorem pollCpuClock_effect {now : Nat} (h : applyEvent (.pollCpuClock now) s = .next t) :
    EventEffect s (.pollCpuClock now) t := by
  unfold applyEvent at h
  dsimp only at h
  split at h
  · exact cpuStep_effect _ h
  · cases h
    exact .control _ s.dt s.st s.paused s.singleStep s.status _ s.timerClock

theorem pollTimerClock_effect {now : Nat} (h : applyEvent (.pollTimerClock now) s = .next t) :
    EventEffect s (.pollTimerClock now) t := by
  unfold applyEvent at h
  dsimp only at h
  split at h
  all_goals
    cases h
    exact .control _ _ _ s.paused s.singleStep s.status s.cpuClock _

theorem saveState_effect {written : Bool} (h : applyEvent (.saveState written) s = .next t) :
    EventEffect s (.saveState written) t := by
  cases written
  · cases h
    exact fault_effect _ .ioError
  · cases h
    exact .control _ s.dt s.st s.paused s.singleStep s.status s.cpuClock s.timerClock

theorem applyEvent_effect {e : Event} (h : applyEvent e s = .next t) : EventEffect s e t := by
  cases e with
  | cpuTick => exact cpuStep_effect (c := s.cpuClock) _ h
  | pollCpuClock => exact pollCpuClock_effect h
  | pollTimerClock => exact pollTimerClock_effect h
  | loadFont => cases h; exact loadFont_effect _
  | loadProgram => exact loadProgram_effect _ h
  | memoryReset => cases h; exact memoryReset_effect _
  | restoreState => exact restoreEvent_effect h
  | saveState => exact saveState_effect h
  | timerTick | startCpuClock | startTimerClock | writePaused | setSingleStep | quit =>
    cases h
    exact .control ..

/-- What a transition can do, on a running machine and on one whose run has ended. -/
theorem transition_effect {e : Event} (h : transition e s = .next t) : EventEffect s e t := by
  obtain ⟨-, h⟩ | ⟨-, rfl⟩ := transition_cases h
  · exact applyEvent_effect h
  · exact .control e t.dt t.st t.paused t.singleStep t.status t.cpuClock t.timerClock

/-- What a step can do: one transition, which the schedule names or which is a CPU tick, from the state
without the event it takes off the schedule. -/
theorem step_effect (h : step s = .next t) :
    ∃ e, (e ∈ s.schedule ∨ e = .cpuTick) ∧
      EventEffect { s with schedule := s.schedule.tail } e t := by
  obtain ⟨hs, h⟩ | ⟨e, rest, hs, h⟩ := step_cases h
  · refine ⟨.cpuTick, .inr rfl, ?_⟩
    have same : { s with schedule := s.schedule.tail } = s := by
      rw [hs]
      exact congrArg (fun l => { s with schedule := l }) hs.symm
    rw [same]
    exact transition_effect h
  · refine ⟨e, .inl (by simp [hs]), ?_⟩
    rw [hs]
    exact transition_effect h

end

/-! ### What every transition keeps -/

namespace EventEffect

variable {s t : State} {e : Event}

theorem schedule_eq (h : EventEffect s e t) : t.schedule = s.schedule := by
  cases h with
  | control | loads => rfl
  | restore source u status env committed => exact (restore_keeps committed).2.2
  | executes _ i w c run =>
    exact (congrArg State.schedule (exec_effect run).control_eq :)

theorem mem_wf (h : EventEffect s e t) (hw : s.mem.wf = true) : t.mem.wf = true := by
  cases h with
  | control => exact hw
  | executes _ i w c run => exact (exec_effect run).mem_wf hw
  | loads _ m n wf => exact wf hw
  | restore source u status env committed => exact (restore_keeps committed).1

theorem programLength_le (h : EventEffect s e t) (hn : s.programLength ≤ 3584) :
    t.programLength ≤ 3584 := by
  cases h with
  | control => exact hn
  | restore source u status env committed =>
    have same : u.programLength = s.programLength := (restore_keeps committed).2.1
    exact same.trans_le hn
  | executes _ i w c run =>
    have same : t.programLength = s.programLength :=
      (congrArg State.programLength (exec_effect run).control_eq :)
    rwa [same]
  | loads _ m n _ bound => exact bound hn

/-- Only a restore can bring in a stack pointer beyond the stack (decision D4). -/
theorem sp_le (h : EventEffect s e t) (he : ∀ source, e ≠ .restoreState source)
    (hsp : s.sp.toNat ≤ 16) : t.sp.toNat ≤ 16 := by
  cases h with
  | control | loads => exact hsp
  | executes _ i w c run => exact (exec_effect run).sp_le hsp
  | restore source => exact absurd rfl (he source)

end EventEffect

/-! ### The invariants and the end of a run -/

/-- Settles O58: the memory invariant and the loader's bound under `EventEffect`. -/
theorem stepKeepsMemoryInvariant : Obligations.StepKeepsMemoryInvariant := by
  intro s t hw hn h
  obtain ⟨e, -, effect⟩ := step_effect h
  exact ⟨effect.mem_wf hw, effect.programLength_le hn⟩

/-- Settles O60: the transition taken is not a restore, and the schedule only loses its head. -/
theorem stepKeepsStackBound : Obligations.StepKeepsStackBound := by
  intro s t hsp hno h
  obtain ⟨e, he, effect⟩ := step_effect h
  have notRestore : ∀ source, e ≠ .restoreState source := by
    rintro source rfl
    obtain hm | hc := he
    · exact hno source hm
    · cases hc
  refine ⟨effect.sp_le notRestore hsp, fun source hm => ?_⟩
  rw [effect.schedule_eq] at hm
  exact hno source (List.mem_of_mem_tail hm)

/-- A machine whose run has ended only reads its schedule off, however long it is run (R32, R281). -/
theorem run_ended {s : State} (h : s.status ≠ .running) (k : Nat) :
    Sys2Proof.core.run k s = .next { s with schedule := s.schedule.drop k } := by
  induction k generalizing s with
  | zero => rfl
  | succ k ih =>
    calc Sys2Proof.core.run (k + 1) s
        = Sys2Proof.core.run k { s with schedule := s.schedule.drop 1 } :=
          run_succ (step_ended h) k
      _ = .next { s with schedule := (s.schedule.drop 1).drop k } := ih h
      _ = .next { s with schedule := s.schedule.drop (k + 1) } := by
          rw [List.drop_drop, Nat.add_comm]

/-- Settles O9: a quit is one write of `status`; a transition of an ended run does nothing, and neither
does a run of any length. -/
theorem endedRunNeverChanges : Obligations.EndedRunNeverChanges := fun _ =>
  ⟨fun hr => transition_running hr .quit, fun he => ⟨transition_ended he, run_ended he⟩⟩

end Sys2Proof.Machine
end

section
/-! PROOFS. The obligations of 20_memory.md. A loader operation is known by the bytes it leaves: a run of
bytes written at rising addresses reads back inside the run and leaves every other address alone. -/

namespace Sys2Proof.Machine

/-! ### A run of written bytes -/

theorem Memory.read_writeBytes_inside (m : Memory) (base : Nat) {bs : List Byte} {k : Nat}
    (hk : k < bs.length) : (m.writeBytes base bs).read (base + k) = bs.getD k 0 := by
  rw [Memory.read_writeBytes, if_pos (by omega), Nat.add_sub_cancel_left]

theorem Memory.read_writeBytes_outside (m : Memory) {base a : Nat} {bs : List Byte}
    (ha : a < base ∨ base + bs.length ≤ a) : (m.writeBytes base bs).read a = m.read a := by
  rw [Memory.read_writeBytes, if_neg (by omega)]

/-- Writing a run of bytes a second time reads as writing it once, for every list of cells. -/
theorem Memory.read_writeBytes_twice (m : Memory) (base : Nat) (bs : List Byte) (a : Nat) :
    ((m.writeBytes base bs).writeBytes base bs).read a = (m.writeBytes base bs).read a := by
  by_cases ha : base ≤ a ∧ a < base + bs.length
  · rw [Memory.read_writeBytes, if_pos ha, Memory.read_writeBytes, if_pos ha]
  · exact Memory.read_writeBytes_outside _ (by omega)

/-- On canonical memories equal reads are equal memories, so the second writing changes no cell. -/
theorem Memory.writeBytes_twice {m : Memory} (hm : m.wf = true) {base : Nat} {bs : List Byte}
    (fits : base + bs.length ≤ Config.memSize) :
    (m.writeBytes base bs).writeBytes base bs = m.writeBytes base bs :=
  have once := Memory.wf_writeBytes hm fits
  Memory.ext_of_wf (Memory.wf_writeBytes once fits) once (Memory.read_writeBytes_twice m base bs)

/-! ### load_font (R77) -/

theorem loadFont_read_inside (s : State) {font : List Byte} {k : Nat} (hk : k < font.length) :
    (loadFont font s).mem.read k = font.getD k 0 := by
  simpa [loadFont_eq] using Memory.read_writeBytes_inside s.mem 0 hk

theorem loadFont_read_outside (s : State) {font : List Byte} {a : Nat} (ha : font.length ≤ a) :
    (loadFont font s).mem.read a = s.mem.read a :=
  Memory.read_writeBytes_outside s.mem (.inr (by rwa [Config.fontBase, Nat.zero_add]))

theorem loadFont_twice {font : List Byte} {s : State} (hm : s.mem.wf = true)
    (fits : font.length ≤ Config.memSize) : loadFont font (loadFont font s) = loadFont font s :=
  congrArg s.setMem (Memory.writeBytes_twice hm (by rwa [Config.fontBase, Nat.zero_add]))

/-- Settles O50: the font is a run of 80 bytes at address 0, and a run written twice is the run written
once, as bytes for every memory and as a state for a canonical one. -/
theorem loadFontIsIdempotent : Obligations.LoadFontIsIdempotent := by
  intro font s h80
  have fits : font.length ≤ Config.memSize := by rw [h80]; decide
  exact ⟨fun k hk => loadFont_read_inside s (h80 ▸ hk),
    fun a ha => loadFont_read_outside s (h80 ▸ ha),
    rfl,
    Memory.read_writeBytes_twice s.mem Config.fontBase font,
    fun hm => loadFont_twice hm fits,
    fun running => transition_running running .loadFont⟩

/-! ### The fetch at the end of memory (R67) -/

/-- Settles O8: the step is a CPU tick behind an open gate, whose fetch fails (`cpuStep_fault`). -/
theorem fetchBeyondMemoryFaults : Obligations.FetchBeyondMemoryFaults := by
  intro s running unscheduled openGate beyond
  have gate : gated s = false := by
    rw [Bool.eq_false_iff, ne_eq, gated_iff]
    rintro ⟨paused, noRequest⟩
    simp [paused, noRequest] at openGate
  calc step s = transition .cpuTick s := step_of_nil unscheduled
    _ = cpuStep s := transition_running running .cpuTick
    _ = _ := cpuStep_fault gate beyond

/-! ### load_program (R78) -/

theorem loadProgram_of_fits {bytes : List Byte} (s : State) (fits : bytes.length ≤ 3584) :
    loadProgram (some bytes) s = .ok { s with
      mem := s.mem.writeBytes 0x200 bytes, programLength := bytes.length } :=
  if_neg (Nat.not_lt.mpr fits)

theorem loadProgram_of_oversized {bytes : List Byte} (s : State) (long : 3584 < bytes.length) :
    loadProgram (some bytes) s = .error (.dataError .oversizedProgram) :=
  if_pos long

/-- On a running machine the transition is the host's operation, a failure of it latched (R275). -/
theorem transition_loadProgram {s : State} (running : s.status = .running)
    {source : Option (List Byte)} {r : Except FaultCause State} (h : loadProgram source s = r) :
    transition (.loadProgram source) s = hostResult s r :=
  (transition_running running _).trans (congrArg (hostResult s) h)

/-- Settles O51: a program that fits is a run of bytes at `0x200`; the two failures only latch `status`. -/
theorem loadProgramCopiesVerbatim : Obligations.LoadProgramCopiesVerbatim := by
  intro s running
  refine ⟨fun bytes fits => ?_, fun bytes long => ?_, ?_⟩
  · exact ⟨_, transition_loadProgram running (loadProgram_of_fits s fits),
      fun k hk => Memory.read_writeBytes_inside s.mem 0x200 hk,
      fun a ha => Memory.read_writeBytes_outside s.mem ha,
      rfl, rfl⟩
  · exact transition_loadProgram running (loadProgram_of_oversized s long)
  · exact transition_loadProgram running rfl

/-! ### Memory reset (R79) -/

/-- The reset keeps what lies outside the program region and clears the region. -/
theorem memoryReset_read (s : State) (a : Nat) :
    (memoryReset s).mem.read a = if a < 0x200 ∨ 0x1000 ≤ a then s.mem.read a else 0 := by
  rw [memoryReset, Memory.read_filter s.mem
    (fun a => decide (a < Config.programStart) || decide (Config.memSize ≤ a))]
  simp only [Bool.or_eq_true, decide_eq_true_eq]
  rfl

/-- Settles O52: every byte after the reset is given by `memoryReset_read`. -/
theorem memoryResetKeepsFont : Obligations.MemoryResetKeepsFont := by
  intro s running
  refine ⟨memoryReset s, transition_running running .memoryReset, fun a low high => ?_,
    fun a below => ?_, rfl, rfl⟩
  · rw [memoryReset_read, if_neg (by omega)]
  · rw [memoryReset_read, if_pos (.inl below)]

end Sys2Proof.Machine
end

section
/-! PROOFS. The obligations of 30_encoding.md. The words that R100 lists are a predicate on the fields; a
word whose fields are known is the encoding written from those fields; the rows of the opcode map then
follow group by group. -/

namespace Sys2Proof

open Laws

variable {w m : Word}

/-! ### The list of illegal words (R100) -/

/-- The words that R100 lists, group by group, on their fields. -/
def ListedIllegal (w : Word) : Prop :=
  (fieldA w = 0x5#4 ∧ fieldN w ≠ 0x0#4) ∨
  (fieldA w = 0x8#4 ∧ fieldN w ∈ [0x8#4, 0x9#4, 0xA#4, 0xB#4, 0xC#4, 0xD#4, 0xF#4]) ∨
  (fieldA w = 0x9#4 ∧ fieldN w ≠ 0x0#4) ∨
  (fieldA w = 0xE#4 ∧ fieldKK w ∉ [0x9E#8, 0xA1#8]) ∨
  (fieldA w = 0xF#4 ∧ fieldKK w ∉
    [0x07#8, 0x0A#8, 0x15#8, 0x18#8, 0x1E#8, 0x29#8, 0x33#8, 0x55#8, 0x65#8])

theorem illegalWord_iff (w : Word) : illegalWord w = true ↔ ListedIllegal w := by
  have hA : w.extractLsb' 12 4 = fieldA w := rfl
  have hN : w.extractLsb' 0 4 = fieldN w := rfl
  have hK : w.extractLsb' 0 8 = fieldKK w := rfl
  simp only [illegalWord, ListedIllegal, hA, hN, hK, Bool.or_eq_true, Bool.and_eq_true, beq_iff_eq,
    bne_iff_ne, Bool.not_eq_true', List.contains_eq_mem, decide_eq_false_iff_not, decide_eq_true_eq,
    or_assoc]

theorem decode_of_listedIllegal (h : ListedIllegal w) : decode w = .illegal w :=
  RoundTrip.illegal w ((illegalWord_iff w).mpr h)

/-! ### A word whose fields are known (R92) -/

theorem encNNN_of_fieldA {a : Nibble} (ha : fieldA w = a) : encNNN a (fieldNNN w) = w :=
  ha ▸ encNNN_fields w

theorem encNNN_of_fields {a : Nibble} {nnn : Addr} (ha : fieldA w = a) (hn : fieldNNN w = nnn) :
    encNNN a nnn = w :=
  hn ▸ encNNN_of_fieldA ha

theorem encXKK_of_fieldA {a : Nibble} (ha : fieldA w = a) :
    encXKK a (fieldX w) (fieldKK w) = w :=
  ha ▸ encXKK_fields w

theorem encXKK_of_fields {a : Nibble} {kk : Byte} (ha : fieldA w = a) (hk : fieldKK w = kk) :
    encXKK a (fieldX w) kk = w :=
  hk ▸ encXKK_of_fieldA ha

theorem encXYN_of_fieldA {a : Nibble} (ha : fieldA w = a) :
    encXYN a (fieldX w) (fieldY w) (fieldN w) = w :=
  ha ▸ encXYN_fields w

theorem encXYN_of_fields {a d : Nibble} (ha : fieldA w = a) (hd : fieldN w = d) :
    encXYN a (fieldX w) (fieldY w) d = w :=
  hd ▸ encXYN_of_fieldA ha

/-! ### Every word stands for the instruction it decodes to -/

/-- `i` is a well-formed instruction whose word is `w`. -/
def StandsFor (i : Instr) (w : Word) : Prop := i.wellFormed = true ∧ encode i = w

theorem illegal_standsFor (h : ListedIllegal w) : StandsFor (.illegal w) w :=
  ⟨(illegalWord_iff w).mpr h, rfl⟩

theorem decodeGroup0_standsFor (ha : fieldA w = 0x0#4) :
    StandsFor (decodeGroup0 (fieldNNN w)) w := by
  unfold decodeGroup0
  split_ifs with hcls hret
  · exact ⟨rfl, encNNN_of_fields ha hcls⟩
  · exact ⟨rfl, encNNN_of_fields ha hret⟩
  · exact ⟨by simp [Instr.wellFormed, hcls, hret], encNNN_of_fieldA ha⟩

/-- Groups 5 and 9: the low nibble is 0 in the one legal row. -/
theorem zeroNibbleRow_standsFor {i : Instr} (row : fieldN w = 0x0#4 → StandsFor i w)
    (listed : fieldN w ≠ 0x0#4 → ListedIllegal w) :
    StandsFor (if fieldN w = 0x0#4 then i else .illegal w) w := by
  split_ifs with hd
  · exact row hd
  · exact illegal_standsFor (listed hd)

/-- The nibbles that select an operation of group 8, and the seven others. -/
theorem group8_nibbles (d : Nibble) :
    d ∈ [0x0#4, 0x1#4, 0x2#4, 0x3#4, 0x4#4, 0x5#4, 0x6#4, 0x7#4, 0xE#4] ∨
    d ∈ [0x8#4, 0x9#4, 0xA#4, 0xB#4, 0xC#4, 0xD#4, 0xF#4] := by
  revert d
  decide

theorem decodeGroup8_standsFor (ha : fieldA w = 0x8#4) :
    StandsFor (decodeGroup8 w (fieldX w) (fieldY w) (fieldN w)) w := by
  unfold decodeGroup8
  split_ifs with h0 h1 h2 h3 h4 h5 h6 h7 hE
  case neg =>
    have notSelected :
        fieldN w ∉ [0x0#4, 0x1#4, 0x2#4, 0x3#4, 0x4#4, 0x5#4, 0x6#4, 0x7#4, 0xE#4] := by
      simp [*]
    exact illegal_standsFor (.inr (.inl ⟨ha, (group8_nibbles _).resolve_left notSelected⟩))
  all_goals exact ⟨rfl, encXYN_of_fields ha ‹_›⟩

theorem decodeGroupE_standsFor (ha : fieldA w = 0xE#4) :
    StandsFor (decodeGroupE w (fieldX w) (fieldKK w)) w := by
  unfold decodeGroupE
  split_ifs
  case neg => exact illegal_standsFor (.inr (.inr (.inr (.inl ⟨ha, by simp [*]⟩))))
  all_goals exact ⟨rfl, encXKK_of_fields ha ‹_›⟩

theorem decodeGroupF_standsFor (ha : fieldA w = 0xF#4) :
    StandsFor (decodeGroupF w (fieldX w) (fieldKK w)) w := by
  unfold decodeGroupF
  split_ifs
  case neg => exact illegal_standsFor (.inr (.inr (.inr (.inr ⟨ha, by simp [*]⟩))))
  all_goals exact ⟨rfl, encXKK_of_fields ha ‹_›⟩

theorem decode_standsFor (w : Word) : StandsFor (decode w) w := by
  obtain h | h | h | h | h | h | h | h | h | h | h | h | h | h | h | h := nibble_cases (fieldA w)
  · exact decode_group0 h ▸ decodeGroup0_standsFor h
  · exact decode_group1 h ▸ ⟨rfl, encNNN_of_fieldA h⟩
  · exact decode_group2 h ▸ ⟨rfl, encNNN_of_fieldA h⟩
  · exact decode_group3 h ▸ ⟨rfl, encXKK_of_fieldA h⟩
  · exact decode_group4 h ▸ ⟨rfl, encXKK_of_fieldA h⟩
  · exact decode_group5 h ▸ zeroNibbleRow_standsFor (fun hd => ⟨rfl, encXYN_of_fields h hd⟩)
      fun hd => .inl ⟨h, hd⟩
  · exact decode_group6 h ▸ ⟨rfl, encXKK_of_fieldA h⟩
  · exact decode_group7 h ▸ ⟨rfl, encXKK_of_fieldA h⟩
  · exact decode_group8 h ▸ decodeGroup8_standsFor h
  · exact decode_group9 h ▸ zeroNibbleRow_standsFor (fun hd => ⟨rfl, encXYN_of_fields h hd⟩)
      fun hd => .inr (.inr (.inl ⟨h, hd⟩))
  · exact decode_groupA h ▸ ⟨rfl, encNNN_of_fieldA h⟩
  · exact decode_groupB h ▸ ⟨rfl, encNNN_of_fieldA h⟩
  · exact decode_groupC h ▸ ⟨rfl, encXKK_of_fieldA h⟩
  · exact decode_groupD h ▸ ⟨rfl, encXYN_of_fieldA h⟩
  · exact decode_groupE h ▸ decodeGroupE_standsFor h
  · exact decode_groupF h ▸ decodeGroupF_standsFor h

/-! ### The rows of the opcode map (R95) -/

theorem decode_sys_row (notCls : w ≠ 0x00E0) (notRet : w ≠ 0x00EE) (h : w &&& 0xF000 = 0x0000) :
    decode w = .sys (fieldNNN w) := by
  have ha : fieldA w = 0x0#4 := fieldA_of_F000 h
  have hcls : fieldNNN w ≠ 0x0E0#12 := fun hn => notCls (encNNN_of_fields ha hn).symm
  have hret : fieldNNN w ≠ 0x0EE#12 := fun hn => notRet (encNNN_of_fields ha hn).symm
  rw [decode_group0 ha, decodeGroup0, if_neg hcls, if_neg hret]

theorem decode_seReg_row (h : w &&& 0xF00F = 0x5000) :
    decode w = .seReg (fieldX w) (fieldY w) := by
  obtain ⟨ha, hd⟩ := fields_of_F00F h
  exact (decode_group5 ha).trans (if_pos hd)

theorem decode_sneReg_row (h : w &&& 0xF00F = 0x9000) :
    decode w = .sneReg (fieldX w) (fieldY w) := by
  obtain ⟨ha, hd⟩ := fields_of_F00F h
  exact (decode_group9 ha).trans (if_pos hd)

/-- A row of group 8 decodes by the low nibble of its match value. -/
theorem decode_group8_row (h : w &&& 0xF00F = m) (hm : fieldA m = 0x8#4) :
    decode w = decodeGroup8 w (fieldX w) (fieldY w) (fieldN m) := by
  obtain ⟨ha, hd⟩ := fields_of_F00F h
  rw [decode_group8 (ha.trans hm), hd]

/-- A row of group E decodes by the low byte of its match value. -/
theorem decode_groupE_row (h : w &&& 0xF0FF = m) (hm : fieldA m = 0xE#4) :
    decode w = decodeGroupE w (fieldX w) (fieldKK m) := by
  obtain ⟨ha, hk⟩ := fields_of_F0FF h
  rw [decode_groupE (ha.trans hm), hk]

/-- A row of group F decodes by the low byte of its match value. -/
theorem decode_groupF_row (h : w &&& 0xF0FF = m) (hm : fieldA m = 0xF#4) :
    decode w = decodeGroupF w (fieldX w) (fieldKK m) := by
  obtain ⟨ha, hk⟩ := fields_of_F0FF h
  rw [decode_groupF (ha.trans hm), hk]

/-! ### The obligations -/

/-- Settles O1: one round trip per constructor, the family `RoundTrip`. -/
theorem decodeOfEncode : Obligations.DecodeOfEncode := by
  intro i
  cases i with
  | cls => exact RoundTrip.cls
  | ret => exact RoundTrip.ret
  | sys nnn => exact RoundTrip.sys nnn
  | jp nnn => exact RoundTrip.jp nnn
  | call nnn => exact RoundTrip.call nnn
  | seImm x kk => exact RoundTrip.seImm x kk
  | sneImm x kk => exact RoundTrip.sneImm x kk
  | seReg x y => exact RoundTrip.seReg x y
  | ldImm x kk => exact RoundTrip.ldImm x kk
  | addImm x kk => exact RoundTrip.addImm x kk
  | ldReg x y => exact RoundTrip.ldReg x y
  | orReg x y => exact RoundTrip.orReg x y
  | andReg x y => exact RoundTrip.andReg x y
  | xorReg x y => exact RoundTrip.xorReg x y
  | addReg x y => exact RoundTrip.addReg x y
  | subReg x y => exact RoundTrip.subReg x y
  | shr x y => exact RoundTrip.shr x y
  | subn x y => exact RoundTrip.subn x y
  | shl x y => exact RoundTrip.shl x y
  | sneReg x y => exact RoundTrip.sneReg x y
  | ldI nnn => exact RoundTrip.ldI nnn
  | jpV0 nnn => exact RoundTrip.jpV0 nnn
  | rnd x kk => exact RoundTrip.rnd x kk
  | drw x y n => exact RoundTrip.drw x y n
  | skp x => exact RoundTrip.skp x
  | sknp x => exact RoundTrip.sknp x
  | ldVxDt x => exact RoundTrip.ldVxDt x
  | ldVxK x => exact RoundTrip.ldVxK x
  | ldDtVx x => exact RoundTrip.ldDtVx x
  | ldStVx x => exact RoundTrip.ldStVx x
  | addI x => exact RoundTrip.addI x
  | ldF x => exact RoundTrip.ldF x
  | ldB x => exact RoundTrip.ldB x
  | ldMemVx x => exact RoundTrip.ldMemVx x
  | ldVxMem x => exact RoundTrip.ldVxMem x
  | illegal w => exact RoundTrip.illegal w

/-- Settles O2: group by group, a word is put together again from the fields its row names, and falls
through to `illegal` only where R100 lists it. -/
theorem encodeOfDecode : Obligations.EncodeOfDecode := decode_standsFor

/-- Settles O3: a line per row. The fields under a row's mask are those of its match value, so the row
picks the group's branch. -/
theorem decodeFollowsOpcodeMap : Obligations.DecodeFollowsOpcodeMap := fun _ =>
  ⟨fun h => h ▸ rfl,
    fun h => h ▸ rfl,
    decode_sys_row,
    fun h => decode_group1 (fieldA_of_F000 h),
    fun h => decode_group2 (fieldA_of_F000 h),
    fun h => decode_group3 (fieldA_of_F000 h),
    fun h => decode_group4 (fieldA_of_F000 h),
    decode_seReg_row,
    fun h => decode_group6 (fieldA_of_F000 h),
    fun h => decode_group7 (fieldA_of_F000 h),
    fun h => decode_group8_row h rfl,
    fun h => decode_group8_row h rfl,
    fun h => decode_group8_row h rfl,
    fun h => decode_group8_row h rfl,
    fun h => decode_group8_row h rfl,
    fun h => decode_group8_row h rfl,
    fun h => decode_group8_row h rfl,
    fun h => decode_group8_row h rfl,
    fun h => decode_group8_row h rfl,
    decode_sneReg_row,
    fun h => decode_groupA (fieldA_of_F000 h),
    fun h => decode_groupB (fieldA_of_F000 h),
    fun h => decode_groupC (fieldA_of_F000 h),
    fun h => decode_groupD (fieldA_of_F000 h),
    fun h => decode_groupE_row h rfl,
    fun h => decode_groupE_row h rfl,
    fun h => decode_groupF_row h rfl,
    fun h => decode_groupF_row h rfl,
    fun h => decode_groupF_row h rfl,
    fun h => decode_groupF_row h rfl,
    fun h => decode_groupF_row h rfl,
    fun h => decode_groupF_row h rfl,
    fun h => decode_groupF_row h rfl,
    fun h => decode_groupF_row h rfl,
    fun h => decode_groupF_row h rfl,
    decode_of_listedIllegal⟩

/-- Settles O4: the decoder run on fifteen fixed words. -/
theorem sampleWordsDecode : Obligations.SampleWordsDecode := by
  unfold Obligations.SampleWordsDecode
  decide

end Sys2Proof
end

section
/-! PROOFS. The obligations of 40_control_flow.md. A CPU tick is known by its gate: behind a closed one
nothing changes, behind an open one the request is consumed. `CALL` and `RET` are known by the entry that
they push and pop, and a skip by the proposition that its comparison decides. -/

namespace Sys2Proof.Machine

variable {s t : State} {w : Word}

/-! ### The gate and the single-step request (R120 to R122) -/

theorem gated_eq_false_iff (s : State) :
    gated s = false ↔ s.paused = false ∨ s.singleStep = true := by
  simp [gated, or_iff_not_imp_left]

/-- A tick behind a closed gate changes nothing (R121). -/
theorem cpuTick_of_closedGate (running : s.status = .running) (paused : s.paused = true)
    (noRequest : s.singleStep = false) : transition .cpuTick s = .next s :=
  (transition_running running .cpuTick).trans (cpuStep_gated ((gated_iff s).mpr ⟨paused, noRequest⟩))

/-- A tick past the gate consumes the request, whether it faults in the fetch or executes (D25). -/
theorem cpuTick_consumes_request (openGate : gated s = false) (running : s.status = .running)
    (tick : transition .cpuTick s = .next t) : t.singleStep = false ∧ t.paused = s.paused := by
  rw [transition_running running, applyEvent] at tick
  obtain ⟨closed, -⟩ | ⟨-, -, fault⟩ | ⟨-, -, w, executes⟩ := cpuStep_cases s
  · simp [openGate] at closed
  · cases fault.symm.trans tick
    exact ⟨rfl, rfl⟩
  · obtain ⟨paused, request, -⟩ := noInstructionWritesControlState _ _ _ (executes.symm.trans tick)
    exact ⟨request, paused⟩

/-- Settles O7: the two writes are by definition; the tick passes the gate and consumes the request, so
that the gate of a paused machine is closed again. -/
theorem singleStepIsConsumed : Obligations.SingleStepIsConsumed := by
  intro s running
  refine ⟨fun value => transition_running running (.writePaused value),
    transition_running running .setSingleStep, fun t tick => ?_⟩
  have openGate : gated { s with singleStep := true } = false := (gated_eq_false_iff _).mpr (.inr rfl)
  obtain ⟨consumed, samePaused⟩ := cpuTick_consumes_request openGate running tick
  exact ⟨consumed, samePaused, fun paused running' =>
    cpuTick_of_closedGate running' (samePaused.trans paused) consumed⟩

/-- The step of a fetched word (R120). -/
theorem step_of_fetches (h : Fetches s w) : step s = exec (decode w) (afterFetch s w) := by
  obtain ⟨running, unscheduled, openGate, inMemory, rfl⟩ := h
  calc step s = transition .cpuTick s := step_of_nil unscheduled
    _ = cpuStep s := transition_running running .cpuTick
    _ = _ := cpuStep_exec ((gated_eq_false_iff s).mpr openGate) (Nat.lt_of_succ_lt_succ inMemory)

/-- Settles O5: the empty schedule's step is a CPU tick behind an open gate, with a fetch that succeeds. -/
theorem stepRunsDecodedInstruction : Obligations.StepRunsDecodedInstruction := fun _ _ =>
  step_of_fetches

/-- Settles O6: the tick meets a closed gate; the timer tick does not ask for the gate. -/
theorem pausedStepChangesNothing : Obligations.PausedStepChangesNothing := fun s running paused noRequest =>
  ⟨cpuTick_of_closedGate running paused noRequest,
    timerTick s, transition_running running .timerTick, rfl, rfl⟩

/-! ### Instructions that only move `pc` (R125, R127, R129, R134) -/

/-- Settles O13: the row of `SYS` in the opcode map, and the ordinary ending. -/
theorem sysIsNoOp : Obligations.SysIsNoOp :=
  ⟨fun _ group notCls notRet => decode_sys_row notCls notRet group, fun _ _ => rfl⟩

/-- Settles O14: a fetched illegal word decodes to itself, and its meaning is the ordinary ending. -/
theorem illegalWordIsNoOp : Obligations.IllegalWordIsNoOp := by
  refine ⟨fun _ _ => rfl, fun w s illegal fetches => ?_⟩
  have decodes : decode w = .illegal w := decode_of_listedIllegal ((illegalWord_iff w).mp illegal)
  rw [step_of_fetches fetches, decodes]
  rfl

/-- Settles O15: the meaning of `JP` is the one write of `pc`. -/
theorem jpLoadsPc : Obligations.JpLoadsPc := fun _ _ => rfl

/-- The sum of a byte and a 12-bit address fits 16 bits, so nothing wraps. -/
theorem jumpV0Target_toNat (s : State) (nnn : Addr) :
    (jumpV0Target s nnn).toNat = (s.readV 0).toNat + nnn.toNat := by
  have absolute : jumpV0Target s nnn = (s.readV 0).setWidth 16 + nnn.setWidth 16 := rfl
  have hV := (s.readV 0).isLt
  have hN := nnn.isLt
  rw [absolute, BitVec.toNat_add, BitVec.toNat_setWidth, BitVec.toNat_setWidth]
  omega

/-- Settles O16: the target is the absolute sum, `jumpV0Target_toNat`. -/
theorem jpV0LoadsSum : Obligations.JpV0LoadsSum := fun nnn s =>
  ⟨jumpV0Target s nnn, rfl, jumpV0Target_toNat s nnn⟩

/-! ### The stack (R126, R128) -/

theorem exec_call_of_room (nnn : Addr) (room : s.sp.toNat < 16) :
    exec (.call nnn) s =
      .next (((s.writeStack s.sp.toNat (s.pc + 2)).setSp (s.sp + 1)).setPc (zext16 nnn)) :=
  if_neg (Nat.not_le.mpr room)

theorem exec_call_of_full (nnn : Addr) (full : 16 ≤ s.sp.toNat) :
    exec (.call nnn) s = takeFault .stackOverflow s :=
  if_pos full

theorem exec_ret_of_empty (empty : s.sp = 0) : exec .ret s = takeFault .stackUnderflow s :=
  if_pos empty

theorem exec_ret_of_beyond (beyond : 16 < s.sp.toNat) :
    exec .ret s = takeFault .stackOverflow s := by
  have used : s.sp ≠ 0 := by bv_omega
  exact (if_neg used).trans (if_pos beyond)

theorem exec_ret_of_used (used : 0 < s.sp.toNat) (inside : s.sp.toNat ≤ 16) :
    exec .ret s = .next ((s.setSp (s.sp - 1)).setPc (s.readStack (s.sp.toNat - 1))) := by
  have nonzero : s.sp ≠ 0 := by bv_omega
  exact (if_neg nonzero).trans (if_neg (Nat.not_lt.mpr inside))

/-- Settles O17: with room the entry at `sp` is the only one written; without room nothing is. -/
theorem callPushesReturnAddress : Obligations.CallPushesReturnAddress := by
  intro nnn s
  refine ⟨fun room => ⟨_, exec_call_of_room nnn room, ?_, rfl, fun k _ => ?_, rfl⟩,
    exec_call_of_full nnn⟩
  · show (s.sp + 1).toNat = s.sp.toNat + 1
    bv_omega
  · exact readStack_writeStack s room k (s.pc + 2)

/-- Settles O18: by how many entries are in use. -/
theorem retPopsNewestEntry : Obligations.RetPopsNewestEntry := by
  intro s
  refine ⟨fun used inside => ⟨_, exec_ret_of_used used inside, ?_, rfl, rfl⟩,
    exec_ret_of_empty, exec_ret_of_beyond⟩
  show (s.sp - 1).toNat + 1 = s.sp.toNat
  bv_omega

/-- Settles O19: the call leaves at least one entry and at most 16, so the return pops, and what it pops
is what the call pushed (`callPushesReturnAddress`, `retPopsNewestEntry`). -/
theorem returnUndoesCall : Obligations.ReturnUndoesCall := by
  intro nnn s t room call
  obtain ⟨t', call', pushedSp, -, pushed, callFrame⟩ := (callPushesReturnAddress nnn s).1 room
  cases call'.symm.trans call
  obtain ⟨u, ret, poppedSp, resumes, retFrame⟩ :=
    (retPopsNewestEntry t).1 (by omega) (by omega)
  have newest : t.sp.toNat - 1 = s.sp.toNat := by omega
  have sameSp : u.sp = s.sp := BitVec.eq_of_toNat_eq (by omega)
  have entries (k : Nat) (hk : k < 16) :
      u.readStack k = if k = s.sp.toNat then s.pc + 2 else s.readStack k :=
    (congrArg (·.readStack k) retFrame).trans (pushed k hk)
  refine ⟨u, ret, ?_, sameSp, ?_, fun k hk other => ?_, ?_⟩
  · rw [resumes, newest, pushed _ room, if_pos rfl]
  · rw [entries _ room, if_pos rfl]
  · rw [entries k hk, if_neg other]
  · calc { u with pc := s.pc, stack := s.stack }
        = { u with sp := s.sp, pc := s.pc, stack := s.stack } := by rw [← sameSp]
      _ = { t with sp := s.sp, pc := s.pc, stack := s.stack } :=
        congrArg (fun v : State => { v with sp := s.sp, pc := s.pc, stack := s.stack }) retFrame
      _ = s := callFrame

/-! ### Skips (R130 to R133) -/

/-- A skip on a comparison that decides `p`. -/
theorem skipWhen_of_iff {taken : Bool} {p : Prop} [Decidable p] (h : taken = true ↔ p) (s : State) :
    skipWhen taken s = .next { s with pc := if p then s.pc + 4 else s.pc + 2 } := by
  by_cases hp : p
  · rw [h.mpr hp, if_pos hp]
    rfl
  · rw [Bool.eq_false_iff.mpr (mt h.mp hp), if_neg hp]
    rfl

theorem mask_000F (w : Word) : w &&& 0x000F = 0#12 ++ fieldN w := by
  rw [fieldN, ← BitVec.setWidth_eq_extractLsb' (by decide)]
  exact BitVec.and_setWidth_allOnes 12 4 w

theorem fieldN_ne_zero_of_mask (h : w &&& 0x000F ≠ 0) : fieldN w ≠ 0x0#4 := by
  intro hn
  rw [mask_000F, hn] at h
  exact h rfl

/-- Settles O20: the rows of the opcode map, and one ending for the four comparisons. -/
theorem skipsCompareAndAdvance : Obligations.SkipsCompareAndAdvance := by
  refine ⟨fun w => ⟨fun h => decode_group3 (fieldA_of_F000 h), fun h => decode_group4 (fieldA_of_F000 h),
      decode_seReg_row, decode_sneReg_row,
      fun h low => decode_of_listedIllegal (.inl ⟨fieldA_of_F000 h, fieldN_ne_zero_of_mask low⟩),
      fun h low => decode_of_listedIllegal
        (.inr (.inr (.inl ⟨fieldA_of_F000 h, fieldN_ne_zero_of_mask low⟩)))⟩,
    fun x y kk s => ⟨skipWhen_of_iff beq_iff_eq s, skipWhen_of_iff bne_iff_ne s,
      skipWhen_of_iff beq_iff_eq s, skipWhen_of_iff bne_iff_ne s⟩⟩

end Sys2Proof.Machine
end

section
/-! PROOFS. The obligations of 41_alu.md. No instruction of this chapter faults, so each is known by its
ordinary ending: after the write of one register, or after the write of a result and then of its flag. The
rest is what each result and each flag is as a number. -/

namespace Sys2Proof.Machine

variable {s : State} {i : Instr} {x : Reg} {v : Byte}

/-! ### The two endings (R163) -/

theorem writesRegister_of_complete (h : exec i s = complete (s.writeV x v)) :
    WritesRegister i s x v :=
  ⟨_, h, fun r => readV_writeV s x r v, rfl, rfl⟩

theorem flagByte_of_iff {b : Bool} {p : Prop} (h : b = true ↔ p) :
    (p ∧ flagByte b = 0x01) ∨ (¬ p ∧ flagByte b = 0x00) := by
  cases b with
  | true => exact .inl ⟨h.mp rfl, rfl⟩
  | false => exact .inr ⟨fun hp => Bool.false_ne_true (h.mpr hp), rfl⟩

/-- The flag is the second write, so it is what `VF` holds whatever `x` is (D9). -/
theorem writesRegisterAndFlag_of_complete {b : Bool} {p : Prop} (flag : b = true ↔ p)
    (h : exec i s = complete (s.writeResultAndFlag x v b)) : WritesRegisterAndFlag i s x v p := by
  have held : (s.writeResultAndFlag x v b).readV regF = flagByte b :=
    readV_writeV_same _ regF (flagByte b)
  refine ⟨_, h, ?_, fun r hr => ?_, rfl, rfl⟩
  · rw [advance_readV, held]
    exact flagByte_of_iff flag
  · rw [advance_readV, readV_writeResultAndFlag, if_neg hr]

/-! ### The flags (R162) -/

theorem carryOut_iff (p q : Byte) : carryOut p q = true ↔ p.toNat + q.toNat > 255 :=
  decide_eq_true_iff

theorem noBorrow_iff (p q : Byte) : noBorrow p q = true ↔ q.toNat ≤ p.toNat :=
  decide_eq_true_iff

theorem lowBit_iff (p : Byte) : lowBit p = true ↔ p.toNat % 2 = 1 := by
  rw [lowBit, BitVec.getLsbD, Nat.testBit_zero, decide_eq_true_iff]

theorem highBit_iff (p : Byte) : highBit p = true ↔ 128 ≤ p.toNat := by
  have top : highBit p = p.msb := (BitVec.msb_eq_getLsbD_last p).symm
  rw [top, BitVec.msb_eq_decide, decide_eq_true_iff]

/-! ### The results -/

theorem toNat_sub_byte (p q : Byte) : (p - q).toNat = (p.toNat + 256 - q.toNat) % 256 := by
  have := q.isLt
  rw [BitVec.toNat_sub]
  omega

theorem toNat_shiftRight_one (p : Byte) : (p >>> 1).toNat = p.toNat / 2 := by
  rw [BitVec.toNat_ushiftRight, Nat.shiftRight_one]

theorem toNat_shiftLeft_one (p : Byte) : (p <<< 1).toNat = 2 * p.toNat % 256 := by
  rw [BitVec.toNat_shiftLeft, Nat.shiftLeft_eq, Nat.mul_comm]

/-! ### The random byte (R161) -/

theorem askRandomByte_of_listed {b : Byte} {rest : List Byte}
    (listed : s.env.randomBytes = b :: rest) :
    s.askRandomByte = (b, s.setEnv { s.env with randomBytes := rest }) := by
  unfold State.askRandomByte
  rw [listed]

theorem exec_rnd_of_answer {r : Byte} {env : Env} (x : Reg) (kk : Byte)
    (answer : s.askRandomByte = (r, s.setEnv env)) :
    exec (.rnd x kk) s = complete ((s.setEnv env).writeV x (r &&& kk)) := by
  show execRnd x kk s = _
  rw [execRnd, answer]

/-! ### The obligations -/

/-- Settles O21: the rows of the opcode map, and one written register per load; the sum of two bytes as
bit vectors is their sum modulo 256. -/
theorem loadsAndAddImmediate : Obligations.LoadsAndAddImmediate :=
  ⟨fun _ => ⟨fun h => decode_group6 (fieldA_of_F000 h), fun h => decode_group7 (fieldA_of_F000 h),
      fun h => decode_group8_row h rfl, fun h => decode_groupA (fieldA_of_F000 h)⟩,
    fun x _ kk _ s => ⟨writesRegister_of_complete rfl,
      ⟨s.readV x + kk, BitVec.toNat_add _ _, writesRegister_of_complete rfl⟩,
      writesRegister_of_complete rfl, rfl⟩⟩

/-- Settles O22: the destination is the only register written, so `VF` is kept where it is not `x`. -/
theorem logicWritesNoFlag : Obligations.LogicWritesNoFlag := fun _ _ _ =>
  ⟨writesRegister_of_complete rfl, writesRegister_of_complete rfl, writesRegister_of_complete rfl⟩

/-- Settles O23: the carry is `carryOut_iff` of the operands as they were before either write. -/
theorem addWritesSumAndCarry : Obligations.AddWritesSumAndCarry := fun x y s =>
  ⟨s.readV x + s.readV y, BitVec.toNat_add _ _,
    writesRegisterAndFlag_of_complete (carryOut_iff _ _) rfl⟩

/-- Settles O24: one difference and one flag, `toNat_sub_byte` and `noBorrow_iff`, with the operands in
either order. -/
theorem subtractWritesDifferenceAndNoBorrow : Obligations.SubtractWritesDifferenceAndNoBorrow :=
  fun x y s =>
    ⟨⟨s.readV x - s.readV y, toNat_sub_byte _ _,
        writesRegisterAndFlag_of_complete (noBorrow_iff _ _) rfl⟩,
      ⟨s.readV y - s.readV x, toNat_sub_byte _ _,
        writesRegisterAndFlag_of_complete (noBorrow_iff _ _) rfl⟩⟩

/-- Settles O25: the bit that each shift drops is the parity, or the top half, of `Vx`. -/
theorem shiftWritesBitShiftedOut : Obligations.ShiftWritesBitShiftedOut := fun x _ s =>
  ⟨⟨s.readV x >>> 1, toNat_shiftRight_one _, writesRegisterAndFlag_of_complete (lowBit_iff _) rfl⟩,
    ⟨s.readV x <<< 1, toNat_shiftLeft_one _, writesRegisterAndFlag_of_complete (highBit_iff _) rfl⟩⟩

/-- Settles O26: whatever the answer is, the question changes nothing but the environment; a listed byte
is the answer, and the list goes on behind it. -/
theorem randomByteIsMasked : Obligations.RandomByteIsMasked := by
  intro x kk s
  obtain ⟨r, env, answer⟩ := askRandomByte_eq s
  refine ⟨r, _, exec_rnd_of_answer x kk answer, fun q => readV_writeV (s.setEnv env) x q _, rfl, rfl,
    fun b rest listed => ?_⟩
  obtain ⟨sameByte, sameState⟩ := Prod.mk.inj (answer.symm.trans (askRandomByte_of_listed listed))
  exact ⟨sameByte, congrArg State.env sameState⟩

end Sys2Proof.Machine
end

section
/-! PROOFS. The obligations of 42_index_memory.md. A register run ends in one of two ways: every address
exists and the loop comes to its end, or it is cut at the first address beyond memory. What the loop has
done by then is said in Laws; here it is read through the ending of the instruction. -/

namespace Sys2Proof.Machine

variable {s t : State} {x k : Reg}

/-! ### The two endings of a register run (R184, R185) -/

theorem exec_ldMemVx_of_ok (h : storeRegs (regRun x) s = .ok t) :
    exec (.ldMemVx x) s = .next t.advance :=
  congrArg finish h

theorem exec_ldMemVx_of_error {f : FaultCause} (h : storeRegs (regRun x) s = .error (f, t)) :
    exec (.ldMemVx x) s = .next (t.raise f) :=
  congrArg finish h

theorem exec_ldVxMem_of_ok (h : loadRegs (regRun x) s = .ok t) :
    exec (.ldVxMem x) s = .next t.advance :=
  congrArg finish h

theorem exec_ldVxMem_of_error {f : FaultCause} (h : loadRegs (regRun x) s = .error (f, t)) :
    exec (.ldVxMem x) s = .next (t.raise f) :=
  congrArg finish h

/-- Where the last address of a run exists, all do. -/
theorem indexAddr_lt_of_le {i j : Nat} (hij : i ≤ j) (hj : indexAddr s j < 4096) :
    indexAddr s i < 4096 :=
  Nat.lt_of_le_of_lt (Nat.add_le_add_left hij _) hj

/-- Settles O35: the registers of the run are those up to `x`, so `storeRegs_ok` speaks of every byte. -/
theorem storeRegisterRun : Obligations.StoreRegisterRun := by
  intro x s inside
  obtain ⟨m, stored, atRun, offRun, -⟩ := storeRegs_ok (regRun x) s fun i hi =>
    indexAddr_lt_of_le ((mem_regRun x i).1 hi) inside
  exact ⟨_, exec_ldMemVx_of_ok stored, fun i hi => atRun i ((mem_regRun x i).2 hi),
    fun a ha => offRun a fun i hi => ha i ((mem_regRun x i).1 hi), rfl, rfl⟩

/-- Settles O36: the run is cut at `k`, whose address is the first beyond memory. -/
theorem storeRegisterRunFaultsPartWay : Obligations.StoreRegisterRunFaultsPartWay := by
  intro x k s hk beyond inside
  obtain ⟨below, above, cut, mem_below⟩ := regRun_split x k hk
  obtain ⟨m, stopped, atRun, offRun, -⟩ := storeRegs_fault below above k s
    (fun i hi => inside i ((mem_below i).1 hi)) beyond
  rw [← cut] at stopped
  exact ⟨_, exec_ldMemVx_of_error stopped, rfl, fun i hi => atRun i ((mem_below i).2 hi),
    fun a ha => offRun a fun i hi => ha i ((mem_below i).1 hi), rfl⟩

/-- Settles O37: `loadRegs_ok` says what every register holds and that nothing else has changed, and the
ending then moves `pc` alone. -/
theorem loadRegisterRun : Obligations.LoadRegisterRun := by
  intro x s inside
  obtain ⟨t, loaded, holds, frame⟩ := loadRegs_ok (regRun x) s fun i hi =>
    indexAddr_lt_of_le ((mem_regRun x i).1 hi) inside
  have samePc : t.pc = s.pc := (congrArg State.pc frame :)
  refine ⟨_, exec_ldVxMem_of_ok loaded, fun i => ?_, congrArg (· + 2) samePc,
    congrArg (fun v : State => { v with pc := s.pc }) frame⟩
  simpa only [advance_readV, mem_regRun] using holds i

/-- Settles O38: the run is cut at `k`, and the registers before the cut are those below `k`. -/
theorem loadRegisterRunFaultsPartWay : Obligations.LoadRegisterRunFaultsPartWay := by
  intro x k s hk beyond inside
  obtain ⟨below, above, cut, mem_below⟩ := regRun_split x k hk
  obtain ⟨t, stopped, holds, frame⟩ := loadRegs_fault below above k s
    (fun i hi => inside i ((mem_below i).1 hi)) beyond
  rw [← cut] at stopped
  refine ⟨_, exec_ldVxMem_of_error stopped, rfl, fun i => ?_,
    congrArg (fun v : State => { v with status := s.status }) frame⟩
  simpa only [raise_readV, mem_below] using holds i

/-! ### The index register (R181, R182) -/

/-- Settles O32: a byte widened to 16 bits is the same number, and the sum of two words as bit vectors is
their sum modulo 65536. -/
theorem addIndexWraps : Obligations.AddIndexWraps := by
  refine fun x s => ⟨s.I + (s.readV x).setWidth 16, ?_, rfl⟩
  rw [BitVec.toNat_add, BitVec.toNat_setWidth_of_le (by decide)]

/-- The glyphs lie far below the end of the address space, so no glyph address wraps (R62). -/
theorem glyphAddr_toNat {d : Nat} (hd : d ≤ 15) : (glyphAddr d).toNat = 5 * d := by
  simp only [glyphAddr, Config.fontBase, Config.fontGlyphBytes, BitVec.toNat_ofNat]
  omega

theorem exec_ldF_of_digit (digit : (s.readV x).toNat < 16) :
    exec (.ldF x) s = complete (s.setI (glyphAddr (s.readV x).toNat)) :=
  if_pos digit

theorem exec_ldF_of_above (above : 15 < (s.readV x).toNat) :
    exec (.ldF x) s = takeFault (.outOfBounds (.digit (s.readV x).toNat)) s :=
  if_neg (Nat.not_lt_of_le above)

/-- Settles O33: the bound is the number of glyphs. -/
theorem loadGlyphAddress : Obligations.LoadGlyphAddress := fun _ _ =>
  ⟨fun digit => ⟨_, glyphAddr_toNat digit, exec_ldF_of_digit (Nat.lt_succ_of_le digit)⟩,
    exec_ldF_of_above⟩

/-! ### Decimal digits (R183) -/

theorem decimalDigits_toNat (v : Byte) :
    (decimalDigits v).1.toNat = v.toNat / 100 ∧
      (decimalDigits v).2.1.toNat = v.toNat / 10 % 10 ∧
      (decimalDigits v).2.2.toNat = v.toNat % 10 := by
  have bound := v.isLt
  simp only [decimalDigits, BitVec.toNat_ofNat]
  omega

/-- The memory after three digits are stored at `I`, `I + 1`, `I + 2`. -/
def digitsMemory (s : State) (v : Byte) : Memory :=
  ((s.mem.write (indexAddr s 0) (decimalDigits v).1).write
    (indexAddr s 1) (decimalDigits v).2.1).write (indexAddr s 2) (decimalDigits v).2.2

theorem exec_ldB_of_room (room : s.I.toNat < 4094) :
    exec (.ldB x) s = complete (s.setMem (digitsMemory s (s.readV x))) := by
  have inside : indexAddr s 2 < 4096 := Nat.add_lt_add_right room 2
  calc exec (.ldB x) s = finish (storeDigits (s.readV x) s) := if_neg (Nat.not_le_of_lt room)
    _ = _ := congrArg finish (storeDigits_ok (s.readV x) s inside)

theorem exec_ldB_of_noRoom (noRoom : 4094 ≤ s.I.toNat) :
    exec (.ldB x) s = takeFault (.outOfBounds (.address s.I.toNat)) s :=
  if_pos noRoom

/-- The three addresses differ, so each holds its digit, and any other address is as before. -/
theorem digitsMemory_read (s : State) (v : Byte) (a : Nat) :
    (digitsMemory s v).read a =
      if a = indexAddr s 2 then (decimalDigits v).2.2
      else if a = indexAddr s 1 then (decimalDigits v).2.1
      else if a = indexAddr s 0 then (decimalDigits v).1
      else s.mem.read a := by
  simp only [digitsMemory, Memory.read_write]

/-- Settles O34: below the bound each address reads as its digit; from the bound on, the one check before
the first store faults. -/
theorem storeDecimalDigits : Obligations.StoreDecimalDigits := by
  refine fun x s => ⟨fun room => ?_, exec_ldB_of_noRoom⟩
  obtain ⟨hundreds, tens, ones⟩ := decimalDigits_toNat (s.readV x)
  refine ⟨_, exec_ldB_of_room room, ?_, ?_, ?_, fun a h0 h1 h2 => ?_, rfl, rfl⟩
  · simp [digitsMemory_read, indexAddr_inj, hundreds]
  · simp [digitsMemory_read, indexAddr_inj, tens]
  · simp [digitsMemory_read, ones]
  · simp [digitsMemory_read, h0, h1, h2]

end Sys2Proof.Machine
end

section
/-! PROOFS. The obligations of 43_display.md. A draw draws the pixels under the set bits of the rows that
lie in memory, in order. It comes to its end, it stops at one pixel with those before it drawn, or it stops
after all of them at the first row beyond memory; each ending is a rule below. -/

namespace Sys2Proof.Machine

variable {s t u : State} {x y : Reg} {n : Nibble} {k : Nat} {p : Nat × Nat}
  {before after : List (Nat × Nat)} {f : FaultCause}

/-- The pixels under the set bits of the first `k` rows of a draw, in drawing order (R203, R207). -/
abbrev covered (s : State) (x y : Reg) (k : Nat) : List (Nat × Nat) :=
  spritePixels s (s.readV x).toNat (s.readV y).toNat s.I.toNat k

/-- The readable part of a sprite is drawn on the state in which `VF` was cleared (R207). -/
theorem exec_drw_eq (x y : Reg) (n : Nibble) (s : State) :
    exec (.drw x y n) s =
      finish ((drawPixels (covered s x y (readableRows s.I.toNat n.toNat)) (s.writeV regF 0)).bind
        fun t =>
          if readableRows s.I.toNat n.toNat = n.toNat then .ok t
          else .error (.outOfBounds (.address (s.I.toNat + readableRows s.I.toNat n.toNat)), t)) :=
  congrArg finish (drawRows_eq _ _ _ _ _)

/-- The readable rows are those before the first beyond memory, or all of them. -/
theorem readableRows_eq {base m : Nat} (hk : k ≤ m) (inside : ∀ r, r < k → base + r ≤ 0xFFF)
    (cut : k = m ∨ 0xFFF < base + k) : readableRows base m = k := by
  have last := inside (k - 1)
  unfold readableRows
  omega

/-! ### The three endings of a draw -/

theorem exec_drw_of_ok (rows : readableRows s.I.toNat n.toNat = n.toNat)
    (drawn : drawPixels (covered s x y n.toNat) (s.writeV regF 0) = .ok t) :
    exec (.drw x y n) s = .next t.advance := by
  rw [exec_drw_eq, rows, drawn]
  exact congrArg finish (if_pos rfl)

theorem exec_drw_of_row_beyond (rows : readableRows s.I.toNat n.toNat = k) (hk : k < n.toNat)
    (drawn : drawPixels (covered s x y k) (s.writeV regF 0) = .ok t) :
    exec (.drw x y n) s = .next (t.raise (.outOfBounds (.address (s.I.toNat + k)))) := by
  rw [exec_drw_eq, rows, drawn]
  exact congrArg finish (if_neg (Nat.ne_of_lt hk))

/-- Pixels are drawn up to the first that raises. -/
theorem drawPixels_of_drawBit_error (drawn : drawPixels before s = .ok t)
    (stops : drawBit p.1 p.2 t = .error (f, u)) :
    drawPixels (before ++ p :: after) s = .error (f, u) := by
  rw [drawPixels_append, drawn]
  simp only [Except.bind, drawPixels, stops]

/-- A pixel that raises ends the draw, whatever lies after it, a row beyond memory included. -/
theorem exec_drw_of_pixel_error (hk : k ≤ n.toNat) (inside : s.I.toNat + k ≤ 0x1000)
    (split : covered s x y k = before ++ p :: after)
    (drawn : drawPixels before (s.writeV regF 0) = .ok t)
    (stops : drawBit p.1 p.2 t = .error (f, u)) :
    exec (.drw x y n) s = .next (u.raise f) := by
  have readable : k ≤ readableRows s.I.toNat n.toNat := by
    unfold readableRows
    omega
  obtain ⟨later, all⟩ : covered s x y k <+: covered s x y (readableRows s.I.toNat n.toNat) :=
    spritePixels_prefix s _ _ _ readable
  rw [exec_drw_eq, ← all, split, List.append_assoc, List.cons_append,
    drawPixels_of_drawBit_error drawn stops]
  rfl

/-! ### The pixel at which a draw stops -/

theorem drawBit_of_off_grid (off : 63 < p.1 ∨ 31 < p.2) (s : State) :
    drawBit p.1 p.2 s = .error (.outOfBounds (.pixel p.1 p.2), s) := by
  rcases drawBit_cases p.1 p.2 s with ⟨-, raises⟩ | ⟨on, -⟩ | ⟨on, -⟩
  · exact raises
  · omega
  · omega

theorem drawBit_of_sink_fails (on : p.1 < 64 ∧ p.2 < 32) (fails : s.env.sinkFailsAfter = some 0) :
    drawBit p.1 p.2 s = .error (.subsystemError, s.setPix (s.pix.toggle p.1 p.2)) := by
  rcases drawBit_cases p.1 p.2 s with ⟨off, -⟩ | ⟨-, -, raises⟩ | ⟨-, accepts, -⟩
  · exact absurd on off
  · exact raises
  · exact absurd (accepts 0 fails) (by decide)

/-- The pixels before the one at which a draw stops are drawn: a sprite covers no pixel twice. -/
theorem drawPixels_before (split : covered s x y k = before ++ p :: after) (grid : AllOnGrid before)
    (accepts : SinkAccepts s before.length) :
    ∃ t, drawPixels before (s.writeV regF 0) = .ok t ∧ Drawn s t before ∧ t.pc = s.pc := by
  have nodup : (before ++ p :: after).Nodup := split ▸ spritePixels_nodup ..
  exact drawPixels_drawn before s grid accepts nodup.of_append_left

/-! ### One draw -/

/-- Settles O39: the cleared grid has no lit pixel, and `CLS` writes nothing but the grid and `pc`. -/
theorem clsClearsEveryPixel : Obligations.ClsClearsEveryPixel :=
  ⟨by decide, fun _ => ⟨_, rfl, Grid.get_clear, rfl, rfl⟩⟩

/-- Settles O40: every row is readable, so the whole sprite is drawn. -/
theorem drawFlipsCoveredPixels : Obligations.DrawFlipsCoveredPixels := by
  intro x y n s inside grid accepts
  obtain ⟨t, drawn, isDrawn, samePc⟩ := drawPixels_drawn _ s grid accepts (spritePixels_nodup ..)
  have rows : readableRows s.I.toNat n.toNat = n.toNat :=
    readableRows_eq (Nat.le_refl _) inside (.inl rfl)
  exact ⟨_, exec_drw_of_ok rows drawn, isDrawn, congrArg (· + 2) samePc⟩

/-- Settles O42: the pixels before `p` are drawn, and `p` raises before anything of it is written. -/
theorem drawOffGridFaults : Obligations.DrawOffGridFaults := by
  intro x y n k s before after p hk inside split grid off accepts
  obtain ⟨t, drawn, isDrawn, samePc⟩ := drawPixels_before split grid accepts
  exact ⟨t, exec_drw_of_pixel_error hk inside split drawn (drawBit_of_off_grid off t), isDrawn,
    samePc⟩

/-- Settles O43: the readable rows are exactly the first `k`. -/
theorem drawBeyondMemoryFaults : Obligations.DrawBeyondMemoryFaults := by
  intro x y n k s hk beyond inside grid accepts
  obtain ⟨t, drawn, isDrawn, samePc⟩ := drawPixels_drawn _ s grid accepts (spritePixels_nodup ..)
  have rows : readableRows s.I.toNat n.toNat = k :=
    readableRows_eq (Nat.le_of_lt hk) inside (.inr beyond)
  exact ⟨t, exec_drw_of_row_beyond rows hk drawn, isDrawn, samePc⟩

/-- Settles O44: the pixels before `p` use up what the sink accepts, so it fails at `p`, which has been
flipped by then. -/
theorem drawSinkFailureFaults : Obligations.DrawSinkFailureFaults := by
  intro x y n k s before after p hk inside split grid on fails
  have accepts : SinkAccepts s before.length := fun b hb =>
    (Option.some.inj (fails.symm.trans hb)).le
  obtain ⟨t, drawn, isDrawn, samePc⟩ := drawPixels_before split grid accepts
  have usedUp : t.env.sinkFailsAfter = some 0 := by
    obtain ⟨-, -, -, env, -⟩ := isDrawn
    simp [env, envAfterPixels, fails]
  exact ⟨t, exec_drw_of_pixel_error hk inside split drawn (drawBit_of_sink_fails on usedUp), isDrawn,
    samePc⟩

end Sys2Proof.Machine

/-! ### Two draws (R205 b) -/

namespace Sys2Proof.Drawn

open Sys2Proof.Machine

variable {s t u : State} {x y : Reg} {ps : List (Nat × Nat)}

theorem I_eq (h : Drawn s t ps) : t.I = s.I := by
  obtain ⟨-, -, -, -, frame⟩ := h
  exact (congrArg State.I frame :)

/-- A draw writes neither `I` nor memory, so at the same coordinates it covers the same pixels again. -/
theorem covered_eq (h : Drawn s t ps) (hx : t.readV x = s.readV x)
    (hy : t.readV y = s.readV y) (k : Nat) : covered t x y k = covered s x y k := by
  have sameI := h.I_eq
  obtain ⟨-, -, -, -, frame⟩ := h
  have sameMem : t.mem = s.mem := (congrArg State.mem frame :)
  simp only [covered, spritePixels, hx, hy, sameI, sameMem]

theorem sinkAccepts (h : Drawn s t ps) {m : Nat} (accepts : SinkAccepts s (ps.length + m)) :
    SinkAccepts t m := by
  obtain ⟨-, -, -, env, -⟩ := h
  intro b hb
  rw [env] at hb
  obtain ⟨c, hc, rfl⟩ := Option.map_eq_some_iff.1 hb
  exact Nat.le_sub_of_add_le' (accepts c hc)

/-- Flipped twice, a pixel is as it was. -/
theorem pix_restored (first : Drawn s t ps) (second : Drawn t u ps) : u.pix = s.pix := by
  obtain ⟨flipped, -⟩ := first
  obtain ⟨flippedAgain, -⟩ := second
  refine Grid.ext_get fun a b _ _ => ?_
  rw [flippedAgain, flipped, Bool.xor_assoc, Bool.xor_self, Bool.xor_false]

/-- A drawn pixel is lit exactly where it was clear before. -/
theorem someLit_iff (h : Drawn s t ps) :
    SomeLit t.pix ps ↔ ∃ p ∈ ps, s.pix.get p.1 p.2 = false := by
  obtain ⟨flipped, -⟩ := h
  refine exists_congr fun p => and_congr_right fun hp => ?_
  rw [flipped, decide_eq_true hp, Bool.xor_true, Bool.not_eq_true']

theorem flag_iff (h : Drawn s t ps) : t.readV regF = 0x01 ↔ SomeLit s.pix ps := by
  obtain ⟨-, ⟨lit, flag⟩ | ⟨dark, flag⟩, -⟩ := h
  · exact iff_of_true flag lit
  · exact iff_of_false (by rw [flag]; decide) dark

theorem flag_zero_or_one (h : Drawn s t ps) :
    t.readV regF = 0x00 ∨ t.readV regF = 0x01 := by
  obtain ⟨-, ⟨-, flag⟩ | ⟨-, flag⟩, -⟩ := h
  · exact .inr flag
  · exact .inl flag

end Sys2Proof.Drawn

namespace Sys2Proof.Machine

/-- Settles O41: O40 holds of the second draw as of the first, and both draw the same pixels. -/
theorem drawTwiceRestoresDisplay : Obligations.DrawTwiceRestoresDisplay := by
  intro x y n s t inside grid accepts run hx hy
  rw [Nat.two_mul] at accepts
  obtain ⟨t', run', first, -⟩ := drawFlipsCoveredPixels x y n s inside grid fun b hb =>
    Nat.le_of_add_right_le (accepts b hb)
  cases run.symm.trans run'
  have same := first.covered_eq hx hy n.toNat
  unfold covered at same
  obtain ⟨u, runAgain, second, -⟩ := drawFlipsCoveredPixels x y n t (first.I_eq ▸ inside)
    (same ▸ grid) (same ▸ first.sinkAccepts accepts)
  rw [same] at second
  exact ⟨u, runAgain, first.pix_restored second, second.flag_iff.trans first.someLit_iff,
    second.flag_zero_or_one⟩

end Sys2Proof.Machine
end

section
/-! PROOFS. The obligations of 44_keypad_timers.md. Each keypad instruction asks the environment one question
and leaves all else as it was, so it is known by what it does with each answer; which answer comes is said by
the lists of the environment (log 1, log 2). -/

namespace Sys2Proof.Machine

variable {s : State} {x : Reg}

/-! ### The key skips (R221, R222) -/

section
variable {down : Bool} {env : Env}

theorem exec_skp_of_answer (answer : s.askKeyDown (s.readV x) = (down, s.setEnv env)) :
    exec (.skp x) s =
      .next { s with pc := if down = true then s.pc + 4 else s.pc + 2, env := env } := by
  show execSkp x s = _
  rw [execSkp, answer]
  exact skipWhen_of_iff Iff.rfl (s.setEnv env)

theorem exec_sknp_of_answer (answer : s.askKeyDown (s.readV x) = (down, s.setEnv env)) :
    exec (.sknp x) s =
      .next { s with pc := if down = true then s.pc + 2 else s.pc + 4, env := env } := by
  have up : (!down) = true ↔ ¬ down = true := by rw [Bool.not_eq_true', Bool.not_eq_true]
  show execSknp x s = _
  rw [execSknp, answer, ← ite_not]
  exact skipWhen_of_iff up (s.setEnv env)

end

/-- Settles O45: both skips ask the same question, and `askKeyDown_cases` says what its answer is. -/
theorem keySkipsFollowTheKey : Obligations.KeySkipsFollowTheKey := by
  intro x s
  obtain ⟨b, rest, listed, answer⟩ | ⟨unlisted, answer⟩ := askKeyDown_cases s (s.readV x)
  · refine ⟨b, _, fun b' rest' listed' => ?taken, fun unlisted => ?absurd, exec_skp_of_answer answer,
      exec_sknp_of_answer answer⟩
    case taken =>
      cases listed.symm.trans listed'
      exact ⟨rfl, rfl⟩
    case absurd => cases listed.symm.trans unlisted
  · refine ⟨_, _, fun b rest listed => ?_, fun _ => rfl, exec_skp_of_answer answer,
      exec_sknp_of_answer answer⟩
    cases unlisted.symm.trans listed

/-! ### The key wait (R223) -/

section
variable {u : State}

theorem askWaitKey_of_listed {a : WaitAnswer} {rest : List WaitAnswer}
    (listed : s.env.keyWaits = a :: rest) :
    s.askWaitKey = (a, s.setEnv { s.env with keyWaits := rest }) := by
  unfold State.askWaitKey
  rw [listed]

theorem askWaitKey_of_unlisted (unlisted : s.env.keyWaits = []) :
    ∃ k env, s.askWaitKey = (.key k, s.setEnv env) := by
  unfold State.askWaitKey
  rw [unlisted]
  exact ⟨_, _, rfl⟩

theorem exec_ldVxK_of_key {k : Byte} (answer : s.askWaitKey = (.key k, u)) :
    exec (.ldVxK x) s = complete (u.writeV x k) := by
  show execLdVxK x s = _
  rw [execLdVxK, answer]

theorem exec_ldVxK_of_quit (answer : s.askWaitKey = (.quit, u)) :
    exec (.ldVxK x) s = .next (u.setStatus .quit) := by
  show execLdVxK x s = _
  rw [execLdVxK, answer]

theorem exec_ldVxK_of_never (answer : s.askWaitKey = (.never, u)) :
    exec (.ldVxK x) s = .fault .keyWaitNeverEnds := by
  show execLdVxK x s = _
  rw [execLdVxK, answer]

end

/-- Settles O46: one lemma per answer; a free answer is always a key (log 2). -/
theorem keyWaitEndsAsTheEnvironmentSays : Obligations.KeyWaitEndsAsTheEnvironmentSays := by
  intro x s
  refine ⟨fun k rest listed => ?key, fun unlisted => ?free,
    fun rest listed => exec_ldVxK_of_quit (askWaitKey_of_listed listed),
    fun rest listed => exec_ldVxK_of_never (askWaitKey_of_listed listed)⟩
  case key =>
    exact ⟨_, exec_ldVxK_of_key (askWaitKey_of_listed listed),
      fun r => readV_writeV (s.setEnv _) x r k, rfl, rfl⟩
  case free =>
    obtain ⟨k, env, answer⟩ := askWaitKey_of_unlisted unlisted
    exact ⟨k, _, exec_ldVxK_of_key answer, fun r => readV_writeV (s.setEnv env) x r k, rfl, rfl⟩

/-! ### The timers (R224 to R226, R289) -/

theorem toneOn_iff (s : State) : s.toneOn = true ↔ s.st ≠ 0 := bne_iff_ne

/-- Settles O47: the rows of the opcode map, one written unit per instruction, and the tone by
`toneOn_iff`. -/
theorem timerGetAndSet : Obligations.TimerGetAndSet :=
  ⟨fun _ => ⟨fun h => decode_groupF_row h rfl, fun h => decode_groupF_row h rfl,
      fun h => decode_groupF_row h rfl⟩,
    fun _ _ => ⟨writesRegister_of_complete rfl, rfl, _, rfl, rfl, toneOn_iff _⟩⟩

end Sys2Proof.Machine
end

section
/-! PROOFS. The obligations of 45_savestate_codec.md. The layout of R241 is said twice, field by field: what
bytes of a captured image are a field of the state, and what a field of the state is after a commit. The two
directions of the round trip put the two readings together. -/

namespace Sys2Proof.Machine

variable {s t : State} {b : List Byte}

/-! ### Little-endian fields (R242) -/

/-- The two bytes from offset `o` on are those of `w`, the low one first. -/
def HoldsWord (b : List Byte) (o : Nat) (w : Word) : Prop :=
  ∀ j, j < 2 → byteAt b (o + j) = wordByte w j

section
variable {o : Nat} {w : Word}

theorem HoldsWord.wordAt_eq (h : HoldsWord b o w) : wordAt b o = w :=
  wordAt_of_bytes (h 0 (by decide)) (h 1 (by decide))

theorem HoldsWord.low_toNat (h : HoldsWord b o w) : (byteAt b o).toNat = w.toNat % 256 :=
  (congrArg BitVec.toNat (h 0 (by decide))).trans (lowByte_toNat w)

theorem HoldsWord.high_toNat (h : HoldsWord b o w) : (byteAt b (o + 1)).toNat = w.toNat / 256 :=
  (congrArg BitVec.toNat (h 1 (by decide))).trans (highByte_toNat w)

end

/-! ### What a captured image holds (R241, R245) -/

theorem capture_take_header (s : State) : (capture s).take 4 = headerTag := by
  rw [capture, ← List.map_take, List.take_range]
  rfl

theorem capture_drop_footer (s : State) : (capture s).drop 4411 = footerTag := by
  rw [capture, ← List.map_drop, List.range_eq_range', List.drop_range']
  rfl

theorem byteAt_capture_register (s : State) (r : Reg) : byteAt (capture s) (4 + r.val) = s.readV r :=
  (byteAt_capture s (by omega)).trans (captureByte_register s r)

theorem capture_holds_I (s : State) : HoldsWord (capture s) 20 s.I := by
  intro j hj
  rw [byteAt_capture s (by omega)]
  simp (disch := omega) only [captureByte, if_neg, dif_neg, if_pos, Nat.add_sub_cancel_left]

theorem byteAt_capture_dt (s : State) : byteAt (capture s) 22 = s.dt := byteAt_capture s (by decide)

theorem byteAt_capture_st (s : State) : byteAt (capture s) 23 = s.st := byteAt_capture s (by decide)

theorem capture_holds_pc (s : State) : HoldsWord (capture s) 24 s.pc := by
  intro j hj
  rw [byteAt_capture s (by omega)]
  simp (disch := omega) only [captureByte, if_neg, dif_neg, if_pos, Nat.add_sub_cancel_left]

theorem byteAt_capture_sp (s : State) : byteAt (capture s) 26 = s.sp := byteAt_capture s (by decide)

theorem capture_holds_stack (s : State) {k : Nat} (hk : k < 16) :
    HoldsWord (capture s) (27 + 2 * k) (s.readStack k) := fun _ hj =>
  (byteAt_capture s (by omega)).trans (captureByte_stack s hk hj)

theorem byteAt_capture_memory (s : State) {a : Nat} (ha : a < 4096) :
    byteAt (capture s) (59 + a) = s.mem.read a :=
  (byteAt_capture s (by omega)).trans (captureByte_memory s ha)

theorem byteAt_capture_pixels (s : State) {py j : Nat} (hy : py < 32) (hj : j < 8) :
    byteAt (capture s) (4155 + 8 * py + j) = packedByte s.pix py j :=
  (byteAt_capture s (by omega)).trans (captureByte_pixels s hy hj)

/-- Eight pixels a byte, the leftmost in bit 7 (R244). -/
theorem capture_pixel (s : State) {px py : Nat} (hx : px < 64) (hy : py < 32) :
    (byteAt (capture s) (4155 + 8 * py + px / 8)).getLsbD (7 - px % 8) = s.pix.get px py := by
  rw [byteAt_capture_pixels s hy (by omega), packedByte_pixel]

/-- Settles O53: the clauses are the lemmas above, field by field. -/
theorem captureFollowsLayout : Obligations.CaptureFollowsLayout := fun s =>
  ⟨capture_length s, capture_take_header s, byteAt_capture_register s,
    (capture_holds_I s).low_toNat, (capture_holds_I s).high_toNat,
    byteAt_capture_dt s, byteAt_capture_st s,
    (capture_holds_pc s).low_toNat, (capture_holds_pc s).high_toNat, byteAt_capture_sp s,
    fun k hk =>
      have offset : 28 + 2 * k = 27 + 2 * k + 1 := by omega
      ⟨(capture_holds_stack s hk).low_toNat, offset ▸ (capture_holds_stack s hk).high_toNat⟩,
    fun _ => byteAt_capture_memory s, fun _ _ => capture_pixel s, capture_drop_footer s⟩

/-! ### What a commit leaves in each field (R247, R249, R250) -/

theorem commitImage_readV (b : List Byte) (t : State) (r : Reg) :
    (commitImage b t).readV r = byteAt b (4 + r.val) := by
  simp [State.readV, commitImage]

theorem commitImage_readStack (b : List Byte) (t : State) {k : Nat} (hk : k < 16) :
    (commitImage b t).readStack k = wordAt b (27 + 2 * k) := by
  simp [State.readStack, commitImage, hk]

theorem commitImage_mem_wf (b : List Byte) (t : State) : (commitImage b t).mem.wf = true :=
  Memory.wf_ofBytes (List.length_take_le ..)

theorem commitImage_mem_read (b : List Byte) (t : State) {a : Nat} (ha : a < 4096) :
    (commitImage b t).mem.read a = byteAt b (59 + a) :=
  calc (commitImage b t).mem.read a
      = byteAt ((b.drop 59).take 4096) a :=
        (Memory.read_ofBytes 0 a _).trans (if_pos (Nat.zero_le a))
    _ = byteAt b (59 + a) := by rw [byteAt_take ha, byteAt_drop]

theorem commitImage_pix_get (b : List Byte) (t : State) {px py : Nat} (hx : px < 64) (hy : py < 32) :
    (commitImage b t).pix.get px py =
      (byteAt b (4155 + 8 * py + px / 8)).getLsbD (7 - px % 8) := by
  simp only [commitImage, Grid.get_ofFn _ (And.intro hx hy)]

/-- The fields that a commit writes, the scalar ones by their offsets. -/
theorem commitImage_eq (b : List Byte) (t : State) :
    commitImage b t =
      { t with
        V := (commitImage b t).V, I := wordAt b 20, dt := byteAt b 22, st := byteAt b 23
        pc := wordAt b 24, sp := byteAt b 26, stack := (commitImage b t).stack
        mem := (commitImage b t).mem, pix := (commitImage b t).pix } := rfl

/-! ### When a restore is accepted (R247, R248, R252) -/

/-- Only the first 4415 bytes are looked at. -/
theorem restore_of_long (h : 4415 ≤ b.length) :
    restore (some b) t = (checkImage (b.take 4415)).map fun _ => commitImage (b.take 4415) t := by
  have size : Config.savestateSize = 4415 := rfl
  simp only [restore, size, if_neg (Nat.not_lt_of_le h)]
  cases checkImage (b.take 4415) <;> rfl

theorem restore_of_short (h : b.length < 4415) : restore (some b) t = .error .ioError :=
  if_pos h

/-- The checks read the two tags, which lie within the first 4415 bytes. -/
theorem checkImage_take (b : List Byte) : checkImage (b.take 4415) = checkImage b := by
  simp only [checkImage, List.take_take, List.drop_take]
  rfl

theorem checkImage_of_header (h : b.take 4 ≠ headerTag) :
    checkImage b = .error (.dataError .header) :=
  if_pos h

theorem checkImage_of_footer (header : b.take 4 = headerTag)
    (h : (b.drop 4411).take 4 ≠ footerTag) : checkImage b = .error (.dataError .footer) :=
  (if_neg (not_not_intro header)).trans (if_pos h)

theorem checkImage_of_tags (header : b.take 4 = headerTag)
    (footer : (b.drop 4411).take 4 = footerTag) : checkImage b = .ok () :=
  (if_neg (not_not_intro header)).trans (if_neg (not_not_intro footer))

theorem restore_of_fault {f : FaultCause} (h : 4415 ≤ b.length) (check : checkImage b = .error f) :
    restore (some b) t = .error f := by
  rw [restore_of_long h, checkImage_take, check]
  rfl

theorem restore_of_tags (length : b.length = 4415) (header : b.take 4 = headerTag)
    (footer : b.drop 4411 = footerTag) : restore (some b) t = .ok (commitImage b t) := by
  have check : checkImage b = .ok () := checkImage_of_tags header (by rw [footer]; rfl)
  rw [restore_of_long length.ge, List.take_of_length_le length.le, check]
  rfl

/-! ### The transition of a restore, with the sink told after the commit (R253) -/

section
variable {source : Option (List Byte)}

theorem transition_restoreState (running : s.status = .running) :
    transition (.restoreState source) s = restoreEvent source s :=
  transition_running running _

theorem transition_restore_of_error {f : FaultCause}
    (running : s.status = .running) (h : restore source s = .error f) :
    transition (.restoreState source) s = .next { s with status := .faulted f } := by
  rw [transition_restoreState running, restoreEvent, h]
  rfl

theorem transition_restore_of_accepts (running : t.status = .running)
    (h : restore source t = .ok s) (accepts : SinkAccepts s 2048) :
    transition (.restoreState source) t = .next { s with env := envAfterPixels s 2048 } := by
  have notified : notifyAllPixels s = (true, s.setEnv (envAfterPixels s 2048)) := by
    obtain ⟨-, hn⟩ | ⟨k, hk, low, -⟩ := notifyAllPixels_cases s
    · exact hn
    · exact absurd (accepts k hk) (Nat.not_le_of_lt low)
  rw [transition_restoreState running]
  simp only [restoreEvent, h, notified]
  rfl

theorem transition_restore_of_sinkFails {accepted : Nat}
    (running : t.status = .running) (h : restore source t = .ok s)
    (listed : s.env.sinkFailsAfter = some accepted) (low : accepted < 2048) :
    transition (.restoreState source) t = .next
      { s with env := envAfterPixels s accepted, status := .faulted .subsystemError } := by
  have spent : envAfterPixels s accepted = { s.env with sinkFailsAfter := some 0 } := by
    simp [envAfterPixels, listed]
  have notified : notifyAllPixels s = (false, s.setEnv (envAfterPixels s accepted)) := by
    obtain ⟨enough, -⟩ | ⟨k, hk, -, hn⟩ := notifyAllPixels_cases s
    · exact absurd (enough accepted listed) (Nat.not_le_of_lt low)
    · rw [spent]
      exact hn
  rw [transition_restoreState running]
  simp only [restoreEvent, h, notified]
  rfl

end

/-- Settles O56: one lemma per failing check; a failed restore has latched its fault and nothing else. -/
theorem failedRestoreChangesNothing : Obligations.FailedRestoreChangesNothing := by
  intro b s running
  have failed {source : Option (List Byte)} {f : FaultCause} (h : restore source s = .error f) :=
    transition_restore_of_error running h
  refine ⟨failed rfl, fun short => failed (restore_of_short short),
    fun long header => failed (restore_of_fault long (checkImage_of_header header)),
    fun long header footer => failed (restore_of_fault long (checkImage_of_footer header footer)),
    fun extra long => ?extra, transition_running running _, transition_running running _⟩
  case extra =>
    have longer : 4415 ≤ (b ++ extra).length := by rw [List.length_append]; omega
    rw [restore_of_long longer, restore_of_long long, List.take_append_of_le_length long]

/-! ### The round trip from the machine (R254) -/

/-- Two states with the same stack entries by every number have the same stack. -/
theorem stack_ext (h : ∀ k, k < 16 → t.readStack k = s.readStack k) : t.stack = s.stack := by
  apply Vector.ext
  intro k hk
  have entry := h k hk
  unfold State.readStack at entry
  rwa [dif_pos hk, dif_pos hk] at entry

theorem commitImage_capture_V (s t : State) : (commitImage (capture s) t).V = s.V :=
  registers_ext fun r => (commitImage_readV _ t r).trans (byteAt_capture_register s r)

theorem commitImage_capture_stack (s t : State) : (commitImage (capture s) t).stack = s.stack :=
  stack_ext fun _ hk => (commitImage_readStack _ t hk).trans
    (capture_holds_stack s hk).wordAt_eq

/-- Equal bytes are equal memories only in the canonical form, hence the premise. -/
theorem commitImage_capture_mem (wf : s.mem.wf = true) (t : State) :
    (commitImage (capture s) t).mem = s.mem := by
  refine Memory.ext_of_wf (commitImage_mem_wf _ t) wf fun a => ?_
  by_cases ha : a < 4096
  · rw [commitImage_mem_read _ t ha, byteAt_capture_memory s ha]
  · have outside : Config.memSize ≤ a := Nat.le_of_not_lt ha
    rw [Memory.read_outside (commitImage_mem_wf _ t) outside, Memory.read_outside wf outside]

theorem commitImage_capture_pix (s t : State) : (commitImage (capture s) t).pix = s.pix :=
  Grid.ext_get fun _ _ hx hy => (commitImage_pix_get _ t hx hy).trans (capture_pixel s hx hy)

/-- Committing a captured image writes every field of the layout with the captured machine's. -/
theorem commitImage_capture (wf : s.mem.wf = true) (t : State) :
    commitImage (capture s) t =
      { t with
        V := s.V, I := s.I, dt := s.dt, st := s.st, pc := s.pc, sp := s.sp, stack := s.stack
        mem := s.mem, pix := s.pix } := by
  rw [commitImage_eq, commitImage_capture_V, commitImage_capture_stack, commitImage_capture_mem wf,
    commitImage_capture_pix, (capture_holds_I s).wordAt_eq, (capture_holds_pc s).wordAt_eq,
    byteAt_capture_dt, byteAt_capture_st, byteAt_capture_sp]

theorem restore_capture (wf : s.mem.wf = true) (t : State) :
    restore (some (capture s)) t = .ok
      { t with
        V := s.V, I := s.I, dt := s.dt, st := s.st, pc := s.pc, sp := s.sp, stack := s.stack
        mem := s.mem, pix := s.pix } := by
  rw [restore_of_tags (capture_length s) (capture_take_header s) (capture_drop_footer s),
    commitImage_capture wf]

/-- Settles O54: the commit is known by `restore_capture`, and what is left is what the sink answers. -/
theorem restoreOfCapture : Obligations.RestoreOfCapture := fun _ t wf running =>
  ⟨transition_restore_of_accepts running (restore_capture wf t),
    fun _ => transition_restore_of_sinkFails running (restore_capture wf t)⟩

/-! ### The round trip from the image (R251, R254) -/

/-- The offsets of an image, by the field of R241 that each belongs to. -/
inductive LayoutOffset : Nat → Prop
  | header {o : Nat} (h : o < 4) : LayoutOffset o
  | register (r : Reg) : LayoutOffset (4 + r.val)
  | I {j : Nat} (hj : j < 2) : LayoutOffset (20 + j)
  | dt : LayoutOffset 22
  | st : LayoutOffset 23
  | pc {j : Nat} (hj : j < 2) : LayoutOffset (24 + j)
  | sp : LayoutOffset 26
  | stack {k j : Nat} (hk : k < 16) (hj : j < 2) : LayoutOffset (27 + 2 * k + j)
  | memory {a : Nat} (ha : a < 4096) : LayoutOffset (59 + a)
  | pixels {py j : Nat} (hy : py < 32) (hj : j < 8) : LayoutOffset (4155 + 8 * py + j)
  | footer {k : Nat} (hk : k < 4) : LayoutOffset (4411 + k)

/-- The layout leaves no offset out. -/
theorem layoutOffset_of_lt {o : Nat} (ho : o < 4415) : LayoutOffset o := by
  have at_eq {p : Nat} (place : LayoutOffset p) (h : p = o) : LayoutOffset o := h ▸ place
  by_cases h4 : o < 4
  · exact .header h4
  by_cases h20 : o < 20
  · exact at_eq (.register ⟨o - 4, by omega⟩) (Nat.add_sub_of_le (by omega))
  by_cases h27 : o < 27
  · have scalar : o = 20 ∨ o = 21 ∨ o = 22 ∨ o = 23 ∨ o = 24 ∨ o = 25 ∨ o = 26 := by omega
    obtain rfl | rfl | rfl | rfl | rfl | rfl | rfl := scalar
    exacts [.I (j := 0) (by decide), .I (j := 1) (by decide), .dt, .st,
      .pc (j := 0) (by decide), .pc (j := 1) (by decide), .sp]
  by_cases h59 : o < 59
  · exact at_eq (.stack (k := (o - 27) / 2) (j := (o - 27) % 2) (by omega) (by omega)) (by omega)
  by_cases h4155 : o < 4155
  · exact at_eq (.memory (a := o - 59) (by omega)) (by omega)
  by_cases h4411 : o < 4411
  · exact at_eq (.pixels (py := (o - 4155) / 8) (j := (o - 4155) % 8) (by omega) (by omega))
      (by omega)
  · exact at_eq (.footer (k := o - 4411) (by omega)) (by omega)

/-- A packed byte that has been unpacked into pixels is packed again to the same byte. -/
theorem packedByte_commitImage (b : List Byte) (t : State) {py j : Nat} (hy : py < 32)
    (hj : j < 8) : packedByte (commitImage b t).pix py j = byteAt b (4155 + 8 * py + j) := by
  refine packedByte_eq fun k hk => ?_
  have byte : (8 * j + k) / 8 = j := by omega
  have bit : (8 * j + k) % 8 = k := by omega
  rw [commitImage_pix_get b t (by omega) hy, byte, bit]

/-- The two tags come back because they are fixed, every other byte because its field holds it whole. -/
theorem byteAt_capture_commitImage (t : State) (header : b.take 4 = headerTag)
    (footer : b.drop 4411 = footerTag) {o : Nat} (place : LayoutOffset o) :
    byteAt (capture (commitImage b t)) o = byteAt b o := by
  cases place with
  | header h => rw [← byteAt_take h, capture_take_header, ← header, byteAt_take h]
  | register r => exact (byteAt_capture_register _ r).trans (commitImage_readV b t r)
  | I hj => exact (capture_holds_I _ _ hj).trans (wordByte_wordAt b 20 _ hj)
  | dt => exact byteAt_capture_dt _
  | st => exact byteAt_capture_st _
  | pc hj => exact (capture_holds_pc _ _ hj).trans (wordByte_wordAt b 24 _ hj)
  | sp => exact byteAt_capture_sp _
  | stack hk hj =>
    rw [capture_holds_stack _ hk _ hj, commitImage_readStack b t hk, wordByte_wordAt _ _ _ hj]
  | memory ha => exact (byteAt_capture_memory _ ha).trans (commitImage_mem_read b t ha)
  | pixels hy hj => exact (byteAt_capture_pixels _ hy hj).trans (packedByte_commitImage b t hy hj)
  | footer => rw [← byteAt_drop, capture_drop_footer, ← footer, byteAt_drop]

/-- Settles O55: the restore commits, and each byte of the capture is the image's. -/
theorem captureOfRestore : Obligations.CaptureOfRestore := fun b t length header footer =>
  ⟨commitImage b t, restore_of_tags length header footer, image_ext (capture_length _) length
    fun _ ho => byteAt_capture_commitImage t header footer (layoutOffset_of_lt ho)⟩

end Sys2Proof.Machine
end

section
/-! PROOFS. The obligations of 60_exceptions.md. An instruction has one of three endings, and only the third
latches a fault; each of its raises is read off what Laws says of the operation that raises. A timer under
repeated ticks is an iterated countdown, and a poll is known by whether its deadline has passed. -/

namespace Sys2Proof.Machine

variable {s t : State} {i : Instr} {f : FaultCause}

/-! ### How an instruction ends

`Ending s i t` says how instruction `i` can leave the latch of `s` (R32, R124, R280). `exec_ending` ties it to
the model. -/

/-- The ways in which an instruction that leads from `s` to `t` ends. -/
inductive Ending (s : State) (i : Instr) (t : State) : Prop
  /-- The instruction is completed (R123). -/
  | completed (status : t.status = s.status)
  /-- A quit request has ended the key wait (R277). -/
  | quit (status : t.status = .quit)
  /-- A fault that the rules list; what the step has written before it is in registers, memory, display or
  environment (R124, R280). -/
  | faulted (f : FaultCause) (listed : ListedFault s f i) (status : t.status = .faulted f)
      (frame : { t with
        V := s.V, mem := s.mem, pix := s.pix, env := s.env, status := s.status } = s)

/-- A fault that is taken before the first write. -/
theorem Ending.of_takeFault (listed : ListedFault s f i) (h : takeFault f s = .next t) :
    Ending s i t := by
  cases h
  exact .faulted f listed rfl rfl

/-- A conditional skip is completed, whatever it has asked the environment. -/
theorem Ending.of_skipWhen {taken : Bool} {env : Env} (h : skipWhen taken (s.setEnv env) = .next t) :
    Ending s i t := by
  obtain ⟨pc, skipped⟩ := skipWhen_eq taken (s.setEnv env)
  cases skipped.symm.trans h
  exact .completed rfl

/-! ### The environment's questions -/

theorem execRnd_ending {x : Reg} {kk : Byte} (h : execRnd x kk s = .next t) :
    Ending s (.rnd x kk) t := by
  obtain ⟨r, env, answer⟩ := askRandomByte_eq s
  cases (exec_rnd_of_answer x kk answer).symm.trans h
  exact .completed rfl

theorem execSkp_ending {x : Reg} (h : execSkp x s = .next t) : Ending s (.skp x) t := by
  obtain ⟨down, env, answer⟩ := askKeyDown_eq s (s.readV x)
  cases (exec_skp_of_answer answer).symm.trans h
  exact .completed rfl

theorem execSknp_ending {x : Reg} (h : execSknp x s = .next t) : Ending s (.sknp x) t := by
  obtain ⟨down, env, answer⟩ := askKeyDown_eq s (s.readV x)
  cases (exec_sknp_of_answer answer).symm.trans h
  exact .completed rfl

theorem execLdVxK_ending {x : Reg} (h : execLdVxK x s = .next t) : Ending s (.ldVxK x) t := by
  obtain ⟨answer, env, asked⟩ := askWaitKey_eq s
  cases answer with
  | key k => cases (exec_ldVxK_of_key asked).symm.trans h; exact .completed rfl
  | quit => cases (exec_ldVxK_of_quit asked).symm.trans h; exact .quit rfl
  | never => cases (exec_ldVxK_of_never asked).symm.trans h

/-! ### One check before the first write (R126, R128, R182, R183) -/

theorem execRet_ending (h : execRet s = .next t) : Ending s .ret t := by
  by_cases empty : s.sp = 0
  · exact .of_takeFault (.inl ⟨empty, rfl⟩) ((exec_ret_of_empty empty).symm.trans h)
  by_cases inside : s.sp.toNat ≤ 16
  · have used : 0 < s.sp.toNat := by bv_omega
    cases (exec_ret_of_used used inside).symm.trans h
    exact .completed rfl
  · have beyond := Nat.lt_of_not_le inside
    exact .of_takeFault (.inr ⟨beyond, rfl⟩) ((exec_ret_of_beyond beyond).symm.trans h)

theorem execCall_ending {nnn : Addr} (h : execCall nnn s = .next t) : Ending s (.call nnn) t := by
  rcases Nat.lt_or_ge s.sp.toNat 16 with room | full
  · cases (exec_call_of_room nnn room).symm.trans h
    exact .completed rfl
  · exact .of_takeFault ⟨full, rfl⟩ ((exec_call_of_full nnn full).symm.trans h)

theorem execLdF_ending {x : Reg} (h : execLdF x s = .next t) : Ending s (.ldF x) t := by
  rcases Nat.lt_or_ge (s.readV x).toNat 16 with digit | above
  · cases (exec_ldF_of_digit digit).symm.trans h
    exact .completed rfl
  · exact .of_takeFault ⟨above, rfl⟩ ((exec_ldF_of_above above).symm.trans h)

theorem execLdB_ending {x : Reg} (h : execLdB x s = .next t) : Ending s (.ldB x) t := by
  rcases Nat.lt_or_ge s.I.toNat 4094 with room | noRoom
  · cases (exec_ldB_of_room room).symm.trans h
    exact .completed rfl
  · exact .of_takeFault ⟨noRoom, rfl⟩ ((exec_ldB_of_noRoom noRoom).symm.trans h)

/-! ### The register runs (R184, R185) -/

/-- Where a run is cut at the first address beyond memory, the fault is the listed one, which `Fx55` and
`Fx65` share. -/
theorem listedFault_of_cut {x k : Reg} {below above : List Reg}
    (cut : regRun x = below ++ k :: above) (inside : ∀ j ∈ below, indexAddr s j.val < 4096)
    (beyond : 4096 ≤ indexAddr s k.val) :
    ListedFault s (.outOfBounds (.address (indexAddr s k.val))) (.ldMemVx x) := by
  have inRun : k ≤ x := (mem_regRun x k).1 (by simp [cut])
  refine ⟨k.val, inRun, beyond, fun j hj => ?_, rfl⟩
  have before : (⟨j, hj.trans k.isLt⟩ : Reg) ∈ below := mem_below_of_regRun cut hj
  exact Nat.le_of_lt_succ (inside _ before)

theorem execLdMemVx_ending {x : Reg} (h : execLdMemVx x s = .next t) : Ending s (.ldMemVx x) t := by
  obtain ⟨m, -, stored | ⟨below, k, above, cut, inside, beyond, stopped⟩⟩ :=
    storeRegs_cases (regRun x) s
  · cases (exec_ldMemVx_of_ok stored).symm.trans h
    exact .completed rfl
  · cases (exec_ldMemVx_of_error stopped).symm.trans h
    exact .faulted _ (listedFault_of_cut cut inside beyond) rfl rfl

theorem execLdVxMem_ending {x : Reg} (h : execLdVxMem x s = .next t) : Ending s (.ldVxMem x) t := by
  obtain ⟨u, -, frame, loaded | ⟨below, k, above, cut, inside, beyond, stopped⟩⟩ :=
    loadRegs_cases (regRun x) s
  · cases (exec_ldVxMem_of_ok loaded).symm.trans h
    exact .completed (congrArg State.status frame :)
  · cases (exec_ldVxMem_of_error stopped).symm.trans h
    exact .faulted _ (listedFault_of_cut cut inside beyond) rfl (congrArg (fun v : State =>
      { v with mem := s.mem, pix := s.pix, env := s.env, status := s.status }) frame)

/-! ### The draw (R207) -/

/-- The number of readable rows is the first row beyond memory, where there is one. -/
theorem readableRows_first {base n : Nat} (cut : readableRows base n < n) :
    0xFFF < base + readableRows base n ∧ ∀ q, q < readableRows base n → base + q ≤ 0xFFF := by
  unfold readableRows at *
  exact ⟨by omega, fun q hq => by omega⟩

theorem execDrw_ending {x y : Reg} {n : Nibble} (h : execDrw x y n s = .next t) :
    Ending s (.drw x y n) t := by
  unfold execDrw at h
  obtain ⟨u, drawn, frame, -⟩ | ⟨f, u, stopped, ⟨frame, -⟩, why⟩ :=
    drawRows_cases (s.readV x).toNat (s.readV y).toNat s.I.toNat n.toNat (s.writeV regF 0)
  · simp only [drawn] at h
    cases h
    exact .completed (congrArg State.status frame :)
  · simp only [stopped] at h
    cases h
    refine .faulted f ?listed rfl (congrArg (fun v : State =>
      { v with V := s.V, mem := s.mem, pix := s.pix, env := s.env, status := s.status }) frame)
    obtain sink | ⟨cut, rfl⟩ | pixel := why
    · exact .inl sink
    · obtain ⟨beyond, inside⟩ := readableRows_first cut
      exact .inr (.inl ⟨_, cut, beyond, inside, rfl⟩)
    · exact .inr (.inr pixel)

/-! ### Every instruction -/

/-- How an instruction ends: every execution that gives a next state has one of the endings. -/
theorem exec_ending (h : exec i s = .next t) : Ending s i t := by
  cases i with
  | ret => exact execRet_ending h
  | call => exact execCall_ending h
  | seImm | sneImm | seReg | sneReg => exact .of_skipWhen (env := s.env) h
  | rnd => exact execRnd_ending h
  | drw => exact execDrw_ending h
  | skp => exact execSkp_ending h
  | sknp => exact execSknp_ending h
  | ldVxK => exact execLdVxK_ending h
  | ldF => exact execLdF_ending h
  | ldB => exact execLdB_ending h
  | ldMemVx => exact execLdMemVx_ending h
  | ldVxMem => exact execLdVxMem_ending h
  | cls | sys | jp | jpV0 | illegal | ldImm | addImm | ldReg | orReg | andReg | xorReg | addReg | subReg
  | shr | subn | shl | ldI | addI | ldVxDt | ldDtVx | ldStVx =>
    cases h
    exact .completed rfl

/-- Settles O10: of the three endings only the fault latches one, and its frame holds every field asked
for. -/
theorem onlyListedFaultsAndPcStays : Obligations.OnlyListedFaultsAndPcStays := by
  intro i s t f running executes latched
  cases exec_ending executes with
  | completed status => cases running.symm.trans (status.symm.trans latched)
  | quit status => cases status.symm.trans latched
  | faulted g listed status frame =>
    cases status.symm.trans latched
    exact ⟨listed, (congrArg State.pc frame :), (congrArg State.opcode frame :),
      (congrArg State.I frame :), (congrArg State.dt frame :), (congrArg State.st frame :),
      (congrArg State.sp frame :), (congrArg State.stack frame :)⟩

/-! ### Timer ticks (R287, R288) -/

theorem countDown_toNat (v : Byte) : (countDown v).toNat = v.toNat - 1 := by
  unfold countDown
  split
  · next zero => simp [zero]
  · bv_omega

theorem countDown_iterate_toNat (k : Nat) (v : Byte) : (countDown^[k] v).toNat = v.toNat - k := by
  induction k generalizing v with
  | zero => rfl
  | succ k ih =>
    calc (countDown^[k] (countDown v)).toNat = (countDown v).toNat - k := ih _
      _ = v.toNat - (k + 1) := by rw [countDown_toNat, Nat.sub_sub, Nat.add_comm]

theorem countDown_iterate_eq_zero_iff (k : Nat) (v : Byte) : countDown^[k] v = 0 ↔ v.toNat ≤ k := by
  rw [← BitVec.toNat_inj, countDown_iterate_toNat]
  exact Nat.sub_eq_zero_iff_le

/-- A run over scheduled timer ticks counts both timers down and uses the schedule up; the pause gate is not
asked (decision D24). -/
theorem run_timerTicks {k : Nat} (running : s.status = .running)
    (ticks : s.schedule = List.replicate k .timerTick) :
    Sys2Proof.core.run k s = .next { s with
      dt := countDown^[k] s.dt, st := countDown^[k] s.st, schedule := [] } := by
  induction k generalizing s with
  | zero =>
    have same : { s with schedule := [] } = s := congrArg (fun l => { s with schedule := l }) ticks.symm
    exact congrArg Host.Outcome.next same.symm
  | succ k ih =>
    have ticked : step s = .next (timerTick { s with schedule := List.replicate k .timerTick }) :=
      (step_of_cons ticks).trans (transition_running (by exact running) .timerTick)
    exact (run_succ ticked k).trans (ih running rfl)

/-- Settles O48: the run is the iterated countdown of both timers. -/
theorem timerReachesZeroAfterItsTicks : Obligations.TimerReachesZeroAfterItsTicks :=
  fun k _ running ticks => ⟨_, run_timerTicks running ticks, countDown_iterate_toNat k _,
    countDown_iterate_toNat k _, countDown_iterate_eq_zero_iff k _, rfl⟩

/-! ### Clocks (R291 to R293) -/

/-- The period of a clock that has a frequency, up to the rounding that is open (log 12). -/
theorem clockPeriod_of_pos {frequency : Nat} (pos : 0 < frequency) :
    clockPeriod frequency = 1000000 / frequency ∨
      (1000000 % frequency ≠ 0 ∧ clockPeriod frequency = 1000000 / frequency + 1) := by
  unfold clockPeriod
  rw [if_neg (Nat.ne_of_gt pos)]
  split
  · next up => exact .inr ⟨up.1, rfl⟩
  · exact .inl rfl

section
variable {c : Clock} {now deadline : Nat}

theorem clockDue_of_reached (started : c.nextTick = some deadline) (reached : deadline ≤ now) :
    clockDue now c = true := by
  unfold clockDue
  rw [started]
  exact decide_eq_true reached

theorem clockDue_of_early (started : c.nextTick = some deadline) (early : now < deadline) :
    clockDue now c = false := by
  unfold clockDue
  rw [started]
  exact decide_eq_false (Nat.not_le_of_lt early)

/-- A due clock counts one tick and measures its next deadline from now (decision D40). -/
theorem pollClock_of_due (due : clockDue now c = true) :
    pollClock now c =
      { frequency := c.frequency, tickCount := c.tickCount + 1
        nextTick := some (now + clockPeriod c.frequency) } :=
  if_pos due

theorem pollClock_of_not_due (notDue : clockDue now c = false) : pollClock now c = c :=
  if_neg (Bool.eq_false_iff.mp notDue)

theorem transition_pollTimerClock_of_due (running : s.status = .running)
    (due : clockDue now s.timerClock = true) :
    transition (.pollTimerClock now) s =
      .next (timerTick { s with timerClock := pollClock now s.timerClock }) := by
  rw [transition_running running, applyEvent, if_pos due]

theorem transition_pollTimerClock_of_not_due (running : s.status = .running)
    (notDue : clockDue now s.timerClock = false) : transition (.pollTimerClock now) s = .next s := by
  rw [transition_running running, applyEvent, if_neg (Bool.eq_false_iff.mp notDue),
    pollClock_of_not_due notDue]

theorem transition_pollCpuClock_of_due (running : s.status = .running)
    (due : clockDue now s.cpuClock = true) :
    transition (.pollCpuClock now) s =
      transition .cpuTick { s with cpuClock := pollClock now s.cpuClock } :=
  calc transition (.pollCpuClock now) s
      = applyEvent (.pollCpuClock now) s := transition_running running _
    _ = cpuStep { s with cpuClock := pollClock now s.cpuClock } := if_pos due
    _ = _ := (transition_running (by exact running) .cpuTick).symm

theorem transition_pollCpuClock_of_not_due (running : s.status = .running)
    (notDue : clockDue now s.cpuClock = false) : transition (.pollCpuClock now) s = .next s := by
  rw [transition_running running, applyEvent, if_neg (Bool.eq_false_iff.mp notDue),
    pollClock_of_not_due notDue]

end

/-- Settles O49: a started clock is due exactly from its deadline on, and one poll of a due clock is one
update of the clock and one tick. -/
theorem pollTicksAtMostOnce : Obligations.PollTicksAtMostOnce := by
  refine ⟨fun _ => clockPeriod_of_pos, fun s now running =>
    ⟨fun deadline started => ⟨fun reached => ?_, fun early => ?_⟩,
      fun deadline started => ⟨fun reached => ?_, fun early => ?_⟩⟩⟩
  · have due := clockDue_of_reached started reached
    rw [transition_pollTimerClock_of_due running due, pollClock_of_due due]
    rfl
  · exact transition_pollTimerClock_of_not_due running (clockDue_of_early started early)
  · have due := clockDue_of_reached started reached
    rw [transition_pollCpuClock_of_due running due, pollClock_of_due due]
  · exact transition_pollCpuClock_of_not_due running (clockDue_of_early started early)

end Sys2Proof.Machine
end

section
/-! PROOFS. The obligations of 70_reset_and_hazards.md. A jump to self is a fixed point of the step, behind
either gate. The boot is known by the one state it leaves, for every running machine that has it scheduled,
and its memory by three regions: the font, the program, and what neither has written. -/

namespace Sys2Proof.Machine

variable {s : State}

/-! ### The jump to self (R314) -/

/-- A run from a fixed point of the step stays there. -/
theorem run_of_fixed (fixed : step s = .next s) (k : Nat) : Sys2Proof.core.run k s = .next s := by
  induction k with
  | zero => rfl
  | succ k ih => exact (run_succ fixed k).trans ih

/-- The state after the fetch of a jump to self is the state after its step: `pc` is loaded with itself. -/
theorem step_jumpToSelf {nnn : Addr} (fetches : Fetches s (encode (.jp nnn)))
    (self : s.pc = zext16 nnn) : step s = .next (afterFetch s (encode (.jp nnn))) :=
  calc step s
      = exec (.jp nnn) (afterFetch s (encode (.jp nnn))) := by
        rw [step_of_fetches fetches, decodeOfEncode (.jp nnn) rfl]
    _ = .next { afterFetch s (encode (.jp nnn)) with pc := zext16 nnn } := jpLoadsPc nnn _
    _ = .next (afterFetch s (encode (.jp nnn))) := by rw [← self]; rfl

/-- A paused machine has used its single-step request up and meets a closed gate; any other fetches the
same jump again. -/
theorem step_after_jumpToSelf {nnn : Addr} (fetches : Fetches s (encode (.jp nnn)))
    (self : s.pc = zext16 nnn) :
    step (afterFetch s (encode (.jp nnn))) = .next (afterFetch s (encode (.jp nnn))) := by
  obtain ⟨running, unscheduled, -, inMemory, word⟩ := fetches
  cases paused : s.paused with
  | true =>
    rw [step_of_nil (by exact unscheduled)]
    exact cpuTick_of_closedGate running paused rfl
  | false => exact step_jumpToSelf ⟨running, unscheduled, .inl paused, inMemory, word⟩ self

/-- Settles O11: the first step leads to a fixed point of the step. -/
theorem jumpToSelfRepeats : Obligations.JumpToSelfRepeats := fun _ _ n fetches self =>
  (run_succ (step_jumpToSelf fetches self) n).trans (run_of_fixed (step_after_jumpToSelf fetches self) n)

/-! ### The boot (R312) -/

/-- The memory after the font and then a program have been written. -/
def bootMemory (m : Memory) (bytes : List Byte) : Memory :=
  (m.writeBytes Config.fontBase Config.font).writeBytes Config.programStart bytes

/-- What the boot with a program, and without a savestate, makes of a machine. -/
def booted (s : State) (bytes : List Byte) (cpuNow timerNow : Nat) : State :=
  { s with
    mem := bootMemory s.mem bytes
    programLength := bytes.length
    cpuClock := startClock cpuNow s.cpuClock
    timerClock := startClock timerNow s.timerClock
    schedule := [] }

/-- The step of a running machine applies the next scheduled event. -/
theorem step_of_scheduled {e : Event} {rest : List Event} (running : s.status = .running)
    (scheduled : s.schedule = e :: rest) : step s = applyEvent e { s with schedule := rest } :=
  (step_of_cons scheduled).trans (transition_running (by exact running) e)

section
variable {bytes : List Byte} {cpuNow timerNow : Nat}

theorem run_startClocks (running : s.status = .running)
    (scheduled : s.schedule = [.startCpuClock cpuNow, .startTimerClock timerNow]) :
    Sys2Proof.core.run 2 s = .next { s with
      cpuClock := startClock cpuNow s.cpuClock
      timerClock := startClock timerNow s.timerClock
      schedule := [] } :=
  (run_succ (step_of_scheduled running scheduled) 1).trans
    (run_succ (step_of_scheduled (e := .startTimerClock timerNow) (by exact running) rfl) 0)

theorem run_loadProgram_startClocks (running : s.status = .running)
    (scheduled : s.schedule =
      [.loadProgram (some bytes), .startCpuClock cpuNow, .startTimerClock timerNow])
    (fits : bytes.length ≤ 3584) :
    Sys2Proof.core.run 3 s = .next { s with
      mem := s.mem.writeBytes Config.programStart bytes
      programLength := bytes.length
      cpuClock := startClock cpuNow s.cpuClock
      timerClock := startClock timerNow s.timerClock
      schedule := [] } := by
  have programLoaded := (step_of_cons scheduled).trans
    (transition_loadProgram (by exact running) (loadProgram_of_fits _ fits))
  exact (run_succ programLoaded 2).trans (run_startClocks (by exact running) rfl)

/-- The boot of a running machine, one transition after the other (decision D45, log 20). -/
theorem run_boot (running : s.status = .running)
    (scheduled : s.schedule = bootSchedule (some bytes) none cpuNow timerNow)
    (fits : bytes.length ≤ 3584) :
    Sys2Proof.core.run 4 s = .next (booted s bytes cpuNow timerNow) := by
  have fontLoaded : step s = .next { s with
      mem := s.mem.writeBytes Config.fontBase Config.font
      schedule := [.loadProgram (some bytes), .startCpuClock cpuNow, .startTimerClock timerNow] } :=
    step_of_scheduled running scheduled
  rw [run_succ fontLoaded, run_loadProgram_startClocks (by exact running) rfl fits, booted, bootMemory]

end

theorem bootMemory_read_font (m : Memory) (bytes : List Byte) {k : Nat} (hk : k < 80) :
    (bootMemory m bytes).read k = Config.font.getD k 0 := by
  have below : k < Config.programStart := Nat.lt_trans hk (by decide)
  rw [bootMemory, Memory.read_writeBytes_outside _ (.inl below)]
  simpa [Config.fontBase] using Memory.read_writeBytes_inside m Config.fontBase (bs := Config.font) hk

theorem bootMemory_read_program (m : Memory) {bytes : List Byte} {k : Nat} (hk : k < bytes.length) :
    (bootMemory m bytes).read (0x200 + k) = bytes.getD k 0 :=
  Memory.read_writeBytes_inside _ Config.programStart hk

theorem bootMemory_read_elsewhere (m : Memory) {bytes : List Byte} {a : Nat} (aboveFont : 80 ≤ a)
    (outside : a < 0x200 ∨ 0x200 + bytes.length ≤ a) : (bootMemory m bytes).read a = m.read a :=
  (Memory.read_writeBytes_outside _ outside).trans
    (Memory.read_writeBytes_outside (base := Config.fontBase) (bs := Config.font) m (.inr aboveFont))

/-- Where memory was all zeros the program region holds the program, continued with zeros. -/
theorem bootMemory_read_programRegion (bytes : List Byte) (k : Nat) :
    (bootMemory [] bytes).read (0x200 + k) = bytes.getD k 0 := by
  by_cases hk : k < bytes.length
  · exact bootMemory_read_program [] hk
  · have beyond : bytes.length ≤ k := Nat.le_of_not_lt hk
    rw [bootMemory_read_elsewhere [] (by omega) (.inr (by omega)), List.getD_eq_default bytes 0 beyond]
    rfl

/-- Settles O12: the boot leaves `booted`, whose memory is the three regions of `bootMemory` over zeros. -/
theorem bootLoadsFontAndProgram : Obligations.BootLoadsFontAndProgram :=
  fun bytes _ _ _ _ fits => ⟨_, run_boot rfl rfl fits,
    fun _ hk => bootMemory_read_font [] bytes hk,
    fun k _ => bootMemory_read_programRegion bytes k,
    fun _ aboveFont belowProgram => bootMemory_read_elsewhere [] aboveFont (.inl belowProgram),
    rfl, rfl, rfl, rfl⟩

/-! ### The state after creation (R310) -/

section
variable (pause : Bool) (hz : Nat)

@[simp] theorem create_readV (r : Reg) : (State.create pause hz).readV r = 0 :=
  Vector.getElem_replicate r.isLt

@[simp] theorem create_readStack (k : Nat) : (State.create pause hz).readStack k = 0 := by
  unfold State.readStack
  split
  · next hk => exact Vector.getElem_replicate hk
  · rfl

end

/-- Settles O57: registers, stack entries and pixels are the elements of constant vectors, and every other
value is a field as created; the reset state is a creation by definition (log 8). -/
theorem creationState : Obligations.CreationState :=
  ⟨fun pause hz => ⟨create_readV pause hz, rfl, rfl, rfl, rfl, rfl, create_readStack pause hz,
    rfl, rfl, rfl, Memory.read_nil, rfl, Grid.get_clear, rfl, rfl, rfl, rfl⟩,
    Config.initialPause, Config.cpuHz, rfl⟩

/-- Settles O59: the memory of a created machine lists no cell, so there is none out of order, out of
range or of the reset content. -/
theorem resetMeetsMemoryInvariant : Obligations.ResetMeetsMemoryInvariant :=
  ⟨(Memory.wf_iff []).mpr trivial, Nat.zero_le _⟩

end Sys2Proof.Machine
end
